-- ==== Sys2Proof/Word.lean ====
section
/-!
DEFINITION. The value types of the CORE: 00_scope.md R4 and R7 (register, address and field widths).
Every value of this hardware is an unsigned number of a stated width (R8).
-/

namespace Sys2Proof

/-- A 4-bit field: a register index `x` or `y`, the count `n`, a key identifier (30_encoding.md R91). -/
abbrev Nib := BitVec 4

/-- A byte: a general register, a timer, a memory cell, the immediate `kk`. -/
abbrev Byte := BitVec 8

/-- The 12-bit address immediate `nnn` (30_encoding.md R91). -/
abbrev Addr12 := BitVec 12

/-- A 16-bit value: an instruction word, `I`, `pc`, a call-stack slot. -/
abbrev Word := BitVec 16

end Sys2Proof
end

