-- ==== Sys2Proof/Config.lean ====
section
/-!
DEFINITION. The two open parameters of the hardware (00_scope.md R5), as constants without a body: nothing in Lean
can evaluate them or prove a value of them, so a theorem holds whatever they are. The spec leaves no other
parameter open.
-/

namespace Sys2Proof

/-- `FONT[0..79]`, the 80 bytes `Reset` writes to `MEM[0x000..0x04F]` (10_state.md R43, decision D37).
FREE VALUE, log entry 1 (DESIGN CHOICE, safe): the spec gives no byte of it as a rule. -/
opaque Config.font : Vector Byte 80

/-- `draw8()`: the n-th byte taken from the environment by `Cxkk` (43_index_random.md R194, decision D17).
FREE VALUE, log entry 2 (DESIGN CHOICE, safe): "the hardware promises only `0 ≤ r ≤ 255`". -/
opaque Config.draw : Nat → Byte

/-- The conventional font table R43 prints, marked there "[from general knowledge, not in source]". The machine does
not use it: a claim about what a glyph looks like takes `Config.font = Config.conventionalFont` as a premise (R43). -/
def Config.conventionalFont : Vector Byte 80 := #v[
  0xF0, 0x90, 0x90, 0x90, 0xF0,   0x20, 0x60, 0x20, 0x20, 0x70,
  0xF0, 0x10, 0xF0, 0x80, 0xF0,   0xF0, 0x10, 0xF0, 0x10, 0xF0,
  0x90, 0x90, 0xF0, 0x10, 0x10,   0xF0, 0x80, 0xF0, 0x10, 0xF0,
  0xF0, 0x80, 0xF0, 0x90, 0xF0,   0xF0, 0x10, 0x20, 0x40, 0x40,
  0xF0, 0x90, 0xF0, 0x90, 0xF0,   0xF0, 0x90, 0xF0, 0x10, 0xF0,
  0xF0, 0x90, 0xF0, 0x90, 0x90,   0xE0, 0x90, 0xE0, 0x90, 0xE0,
  0xF0, 0x80, 0x80, 0x80, 0xF0,   0xE0, 0x90, 0x90, 0x90, 0xE0,
  0xF0, 0x80, 0xF0, 0x80, 0xF0,   0xF0, 0x80, 0xF0, 0x80, 0x80]

end Sys2Proof
end

