-- ==== Sys2Proof/Syntax.lean ====
section
/-!
DEFINITION. The instruction set: one constructor per row of spec/opcode_table.json, in the table's order
(30_encoding.md R98). The operands are the row's fields. The fields the hardware ignores (`n` of `5xy0` and
`9xy0`, `y` of `8xy6` and `8xyE`: R100, R105) are kept as operands, so that an `Instr` stands for exactly one word.
-/

namespace Sys2Proof

inductive Instr where
  /-- `00E0`, 44_graphics.md R201. -/
  | cls
  /-- `00EE`, 41_control_flow.md R140. -/
  | ret
  /-- `1nnn`, R141. -/
  | jp (nnn : Addr12)
  /-- `2nnn`, R142. -/
  | call (nnn : Addr12)
  /-- `3xkk`, R144. -/
  | seImm (x : Nib) (kk : Byte)
  /-- `4xkk`, R145. -/
  | sneImm (x : Nib) (kk : Byte)
  /-- `5xy0`, R146; `n` is ignored (R105). -/
  | seReg (x y n : Nib)
  /-- `6xkk`, 42_load_alu.md R162. -/
  | ldImm (x : Nib) (kk : Byte)
  /-- `7xkk`, R163. -/
  | addImm (x : Nib) (kk : Byte)
  /-- `8xy0`, R164. -/
  | ldReg (x y : Nib)
  /-- `8xy1`, R165. -/
  | orReg (x y : Nib)
  /-- `8xy2`, R166. -/
  | andReg (x y : Nib)
  /-- `8xy3`, R167. -/
  | xorReg (x y : Nib)
  /-- `8xy4`, R168. -/
  | addReg (x y : Nib)
  /-- `8xy5`, R169. -/
  | sub (x y : Nib)
  /-- `8xy6`, R170; `y` is ignored (R100). -/
  | shr (x y : Nib)
  /-- `8xy7`, R171. -/
  | subn (x y : Nib)
  /-- `8xyE`, R172; `y` is ignored (R100). -/
  | shl (x y : Nib)
  /-- `9xy0`, 41_control_flow.md R147; `n` is ignored (R105). -/
  | sneReg (x y n : Nib)
  /-- `Annn`, 43_index_random.md R190. -/
  | ldI (nnn : Addr12)
  /-- `Bnnn`, 41_control_flow.md R143. -/
  | jpV0 (nnn : Addr12)
  /-- `Cxkk`, 43_index_random.md R194. -/
  | rnd (x : Nib) (kk : Byte)
  /-- `Dxyn`, 44_graphics.md R202. -/
  | drw (x y n : Nib)
  /-- `Ex9E`, 45_keypad_timers.md R221. -/
  | skp (x : Nib)
  /-- `ExA1`, R222. -/
  | sknp (x : Nib)
  /-- `Fx07`, R224. -/
  | ldVxDt (x : Nib)
  /-- `Fx0A`, R223. -/
  | ldVxK (x : Nib)
  /-- `Fx15`, R225. -/
  | ldDtVx (x : Nib)
  /-- `Fx18`, R226. -/
  | ldStVx (x : Nib)
  /-- `Fx1E`, 43_index_random.md R191. -/
  | addI (x : Nib)
  /-- `Fx29`, R192. -/
  | ldF (x : Nib)
  /-- `Fx33`, 46_memory_ops.md R241. -/
  | ldB (x : Nib)
  /-- `Fx55`, R242. -/
  | ldMem (x : Nib)
  /-- `Fx65`, R243. -/
  | ldVxMem (x : Nib)
  deriving DecidableEq, Repr

end Sys2Proof
end

