-- ==== Sys2Proof/WellFormed.lean ====
section
/-!
DEFINITION. Well-formedness of an instruction. The operand types already hold every field to its width, and the
spec calls every value of every operand field legal (30_encoding.md R97, R102), so no operand can be out of range.
What is left to check is the encoding an assembler must emit: "The canonical encoding, which an assembler must
emit, has `n = 0`" for `5xy0` and `9xy0` (R105). The decoder accepts the aliases too, and every statement of this
package holds for them as well: none takes well-formedness as a premise.
-/

namespace Sys2Proof

/-- The instruction is in the form R105 asks an assembler to emit. -/
def Instr.wellFormed : Instr → Bool
  | .cls => true
  | .ret => true
  | .jp _ => true
  | .call _ => true
  | .seImm _ _ => true
  | .sneImm _ _ => true
  | .seReg _ _ n => n == 0
  | .ldImm _ _ => true
  | .addImm _ _ => true
  | .ldReg _ _ => true
  | .orReg _ _ => true
  | .andReg _ _ => true
  | .xorReg _ _ => true
  | .addReg _ _ => true
  | .sub _ _ => true
  | .shr _ _ => true
  | .subn _ _ => true
  | .shl _ _ => true
  | .sneReg _ _ n => n == 0
  | .ldI _ => true
  | .jpV0 _ => true
  | .rnd _ _ => true
  | .drw _ _ _ => true
  | .skp _ => true
  | .sknp _ => true
  | .ldVxDt _ => true
  | .ldVxK _ => true
  | .ldDtVx _ => true
  | .ldStVx _ => true
  | .addI _ => true
  | .ldF _ => true
  | .ldB _ => true
  | .ldMem _ => true
  | .ldVxMem _ => true

/-- The canonical spelling of an instruction: the ignored field `n` of `5xy0` and `9xy0` set to 0 (R105). -/
def Instr.canonical : Instr → Instr
  | .seReg x y _ => .seReg x y 0
  | .sneReg x y _ => .sneReg x y 0
  | i => i

theorem Instr.canonical_wellFormed (i : Instr) : i.canonical.wellFormed = true := by
  cases i <;> rfl

theorem Instr.canonical_of_wellFormed {i : Instr} (h : i.wellFormed = true) : i.canonical = i := by
  cases i <;> simp_all [Instr.canonical, Instr.wellFormed]

end Sys2Proof
end

