-- ==== Sys2Proof/Decode.lean ====
section
/-!
DEFINITION. Decoding and encoding, from 30_encoding.md: the fields (R91), the formats (R92 to R96) and the opcode
map (R98). A word is an instruction iff it agrees with the row's `match` under the row's `mask`; a word that agrees
with no row is illegal (R104). The encoder is written from the format of each row, independently of the map.
-/

namespace Sys2Proof

/-- `x = w[11:8]` (R91). -/
def fieldX (w : Word) : Nib := w.extractLsb' 8 4

/-- `y = w[7:4]` (R91). -/
def fieldY (w : Word) : Nib := w.extractLsb' 4 4

/-- `n = w[3:0]` (R91). -/
def fieldN (w : Word) : Nib := w.extractLsb' 0 4

/-- `kk = w[7:0]` (R91). -/
def fieldKK (w : Word) : Byte := w.extractLsb' 0 8

/-- `nnn = w[11:0]` (R91). -/
def fieldNNN (w : Word) : Addr12 := w.extractLsb' 0 12

/-- One row of the opcode map (R98): "a word `w` is that instruction iff `w & mask = match`". `pat` is the column
`match`; `build` takes the row's operand fields out of the word. -/
structure OpcodeRow where
  mask : Word
  pat : Word
  build : Word → Instr

/-- The word belongs to the row. -/
def OpcodeRow.hits (r : OpcodeRow) (w : Word) : Bool := (w &&& r.mask) == r.pat

/-- The opcode map, row for row (R98). -/
def opcodeMap : List OpcodeRow := [
  { mask := 0xFFFF, pat := 0x00E0, build := fun _ => .cls },
  { mask := 0xFFFF, pat := 0x00EE, build := fun _ => .ret },
  { mask := 0xF000, pat := 0x1000, build := fun w => .jp (fieldNNN w) },
  { mask := 0xF000, pat := 0x2000, build := fun w => .call (fieldNNN w) },
  { mask := 0xF000, pat := 0x3000, build := fun w => .seImm (fieldX w) (fieldKK w) },
  { mask := 0xF000, pat := 0x4000, build := fun w => .sneImm (fieldX w) (fieldKK w) },
  { mask := 0xF000, pat := 0x5000, build := fun w => .seReg (fieldX w) (fieldY w) (fieldN w) },
  { mask := 0xF000, pat := 0x6000, build := fun w => .ldImm (fieldX w) (fieldKK w) },
  { mask := 0xF000, pat := 0x7000, build := fun w => .addImm (fieldX w) (fieldKK w) },
  { mask := 0xF00F, pat := 0x8000, build := fun w => .ldReg (fieldX w) (fieldY w) },
  { mask := 0xF00F, pat := 0x8001, build := fun w => .orReg (fieldX w) (fieldY w) },
  { mask := 0xF00F, pat := 0x8002, build := fun w => .andReg (fieldX w) (fieldY w) },
  { mask := 0xF00F, pat := 0x8003, build := fun w => .xorReg (fieldX w) (fieldY w) },
  { mask := 0xF00F, pat := 0x8004, build := fun w => .addReg (fieldX w) (fieldY w) },
  { mask := 0xF00F, pat := 0x8005, build := fun w => .sub (fieldX w) (fieldY w) },
  { mask := 0xF00F, pat := 0x8006, build := fun w => .shr (fieldX w) (fieldY w) },
  { mask := 0xF00F, pat := 0x8007, build := fun w => .subn (fieldX w) (fieldY w) },
  { mask := 0xF00F, pat := 0x800E, build := fun w => .shl (fieldX w) (fieldY w) },
  { mask := 0xF000, pat := 0x9000, build := fun w => .sneReg (fieldX w) (fieldY w) (fieldN w) },
  { mask := 0xF000, pat := 0xA000, build := fun w => .ldI (fieldNNN w) },
  { mask := 0xF000, pat := 0xB000, build := fun w => .jpV0 (fieldNNN w) },
  { mask := 0xF000, pat := 0xC000, build := fun w => .rnd (fieldX w) (fieldKK w) },
  { mask := 0xF000, pat := 0xD000, build := fun w => .drw (fieldX w) (fieldY w) (fieldN w) },
  { mask := 0xF0FF, pat := 0xE09E, build := fun w => .skp (fieldX w) },
  { mask := 0xF0FF, pat := 0xE0A1, build := fun w => .sknp (fieldX w) },
  { mask := 0xF0FF, pat := 0xF007, build := fun w => .ldVxDt (fieldX w) },
  { mask := 0xF0FF, pat := 0xF00A, build := fun w => .ldVxK (fieldX w) },
  { mask := 0xF0FF, pat := 0xF015, build := fun w => .ldDtVx (fieldX w) },
  { mask := 0xF0FF, pat := 0xF018, build := fun w => .ldStVx (fieldX w) },
  { mask := 0xF0FF, pat := 0xF01E, build := fun w => .addI (fieldX w) },
  { mask := 0xF0FF, pat := 0xF029, build := fun w => .ldF (fieldX w) },
  { mask := 0xF0FF, pat := 0xF033, build := fun w => .ldB (fieldX w) },
  { mask := 0xF0FF, pat := 0xF055, build := fun w => .ldMem (fieldX w) },
  { mask := 0xF0FF, pat := 0xF065, build := fun w => .ldVxMem (fieldX w) }]

/-- The decode phase (40_step_cycle.md R124): the row of the map the word agrees with, or none. -/
def decodeWord (w : Word) : Option Instr :=
  match opcodeMap.find? (fun r => r.hits w) with
  | some r => some (r.build w)
  | none => none

/-- Why bytes do not decode. -/
inductive DecodeError where
  /-- Fewer than the two bytes of an instruction (R90). -/
  | truncated
  /-- The word is in no row of the map (R104). -/
  | illegal (w : Word)
  deriving DecidableEq, Repr

/-- Two bytes as one word, the byte at the lower address high (20_memory.md R66). -/
def wordOfBytes (hi lo : Byte) : Word := hi ++ lo

/-- Decoding from a list of bytes: the instruction and the bytes after it, or the reason there is none. -/
def decode : List Byte → Except DecodeError (Instr × List Byte)
  | hi :: lo :: rest =>
    match decodeWord (wordOfBytes hi lo) with
    | some i => .ok (i, rest)
    | none => .error (.illegal (wordOfBytes hi lo))
  | _ => .error .truncated

/-- Format `NNN`: `op`, `nnn` (R92). -/
def formatNNN (op : Nib) (nnn : Addr12) : Word := op ++ nnn

/-- Format `XKK`, and `XSS` with the sub-opcode in the place of `kk`: `op`, `x`, `kk` (R93, R95). -/
def formatXKK (op x : Nib) (kk : Byte) : Word := op ++ x ++ kk

/-- Format `XYN`: `op`, `x`, `y`, `n` (R94). -/
def formatXYN (op x y n : Nib) : Word := op ++ x ++ y ++ n

/-- The word of an instruction, by the format of its row (R92 to R96, R98). -/
def encode : Instr → Word
  | .cls => 0x00E0
  | .ret => 0x00EE
  | .jp nnn => formatNNN 0x1 nnn
  | .call nnn => formatNNN 0x2 nnn
  | .seImm x kk => formatXKK 0x3 x kk
  | .sneImm x kk => formatXKK 0x4 x kk
  | .seReg x y n => formatXYN 0x5 x y n
  | .ldImm x kk => formatXKK 0x6 x kk
  | .addImm x kk => formatXKK 0x7 x kk
  | .ldReg x y => formatXYN 0x8 x y 0x0
  | .orReg x y => formatXYN 0x8 x y 0x1
  | .andReg x y => formatXYN 0x8 x y 0x2
  | .xorReg x y => formatXYN 0x8 x y 0x3
  | .addReg x y => formatXYN 0x8 x y 0x4
  | .sub x y => formatXYN 0x8 x y 0x5
  | .shr x y => formatXYN 0x8 x y 0x6
  | .subn x y => formatXYN 0x8 x y 0x7
  | .shl x y => formatXYN 0x8 x y 0xE
  | .sneReg x y n => formatXYN 0x9 x y n
  | .ldI nnn => formatNNN 0xA nnn
  | .jpV0 nnn => formatNNN 0xB nnn
  | .rnd x kk => formatXKK 0xC x kk
  | .drw x y n => formatXYN 0xD x y n
  | .skp x => formatXKK 0xE x 0x9E
  | .sknp x => formatXKK 0xE x 0xA1
  | .ldVxDt x => formatXKK 0xF x 0x07
  | .ldVxK x => formatXKK 0xF x 0x0A
  | .ldDtVx x => formatXKK 0xF x 0x15
  | .ldStVx x => formatXKK 0xF x 0x18
  | .addI x => formatXKK 0xF x 0x1E
  | .ldF x => formatXKK 0xF x 0x29
  | .ldB x => formatXKK 0xF x 0x33
  | .ldMem x => formatXKK 0xF x 0x55
  | .ldVxMem x => formatXKK 0xF x 0x65

/-- The high byte of a word: the byte at the lower address (20_memory.md R66). -/
def highByte (w : Word) : Byte := w.extractLsb' 8 8

/-- The low byte of a word: the byte at the higher address (20_memory.md R66). -/
def lowByte (w : Word) : Byte := w.extractLsb' 0 8

/-- The two bytes of a word as memory holds them: high byte first (R90, 20_memory.md R66). -/
def bytesOfWord (w : Word) : List Byte := [highByte w, lowByte w]

/-- The bytes of an instruction as memory holds them. -/
def encodeBytes (i : Instr) : List Byte := bytesOfWord (encode i)

/-- The decoder read through the table's numbering of bits: `w` holds the instruction's one word, bit 0 its least
significant bit; bits at and above `nbits` are 0. The word is laid out as memory holds it and given to `decode`. -/
def decodeTableWord (nbits w : Nat) : Option Instr :=
  match decode (bytesOfWord (BitVec.ofNat 16 (w % 2 ^ nbits))) with
  | .ok (i, _) => some i
  | .error _ => none

end Sys2Proof
end

