-- ==== Sys2Proof/Machine/State.lean ====
section
/-!
DEFINITION. The state of the CORE (10_state.md), the fault reasons of the spec, and the state after power-on and
reset. Plain data only. Every field is one the spec names, but `draws` (log entry 2).
-/

namespace Sys2Proof.Machine

/-- The reason of `Halted(reason)`: the closed type of four reasons (60_exceptions.md R261 to R264, R266). -/
inductive HaltReason where
  /-- The fetched word `w` is in no row of the opcode map (R261). -/
  | decodeFault (w : Word)
  /-- `00EE` with `sp = 0` (R262). -/
  | stackUnderflow
  /-- `2nnn` with `sp = 16` (R263). -/
  | stackOverflow
  /-- An illegal fetch, read or write; `a` is the lowest illegal address of the access (R264). -/
  | addressFault (a : Nat)
  deriving DecidableEq, Repr

/-- `STATUS`, the run state of the interpreter (10_state.md R32). -/
inductive Status where
  | running
  | waiting
  | halted (reason : HaltReason)
  deriving DecidableEq, Repr

/-- Why a step has no next state. The spec's own faults are not among these: the spec describes their entry
(60_exceptions.md R268), so a step takes them, as a next state whose `STATUS` is `Halted`. -/
inductive Fault where
  /-- SAFE (DESIGN CHOICE, log entry 4). Raised by `00EE` and `2nnn` when `sp` is 17 to 255, values 10_state.md R28 calls
  unreachable: the slot `STACK[k]` they would use does not exist (R29 numbers the slots 1 to 16). -/
  | noStackSlot (k : Nat)
  deriving DecidableEq, Repr

/-- Why a step gives an instruction no meaning. -/
inductive Refusal where
  /-- SAFE. Raised by an arm of `exec` whose instruction is not modelled; in this model no arm is. -/
  | notModelled (mnemonic : String)
  deriving DecidableEq, Repr

/-- The 4096-byte store (20_memory.md R60) as the list of the bytes that differ from what power-on leaves there:
addresses strictly rising, no entry equal to what an unlisted address reads as (`Memory.wf` in Machine/Ops.lean). -/
abbrev Memory := List Host.Cell

/-- `FB[r][c]`, 32 rows of 64 one-bit cells (10_state.md R37); `true` is 1, on. -/
abbrev Framebuffer := Vector (Vector Bool 64) 32

/-- The state of the CORE: every row of the summary table of 10_state.md, and the model's own `draws`. -/
structure State where
  /-- `V[0]` to `V[15]` (R20). -/
  v : Vector Byte 16
  /-- `I`, the address register (R27). -/
  i : Word
  /-- The program counter (R24). -/
  pc : Word
  /-- The stack pointer: the number of frames on the call stack (R28). -/
  sp : Byte
  /-- `STACK[1]` to `STACK[16]` (R29); slot `k` stands at index `k - 1`. -/
  stack : Vector Word 16
  /-- `DT`, the delay timer (R30). -/
  dt : Byte
  /-- `ST`, the sound timer (R31). -/
  st : Byte
  /-- `MEM` (R41). -/
  mem : Memory
  /-- `FB` (R37). -/
  fb : Framebuffer
  /-- `KEY[0]` to `KEY[15]` (R38); `true` is 1, pressed. -/
  key : Vector Bool 16
  /-- `STATUS` (R32). -/
  status : Status
  /-- `WX`, the wait destination latch (R33). -/
  wx : Nib
  /-- `ACC`, the timer accumulator in seconds, an exact rational (R34). -/
  acc : Rat
  /-- THE MODEL'S OWN FIELD (log entry 2): how many random bytes have been taken, the index of the next free value. -/
  draws : Nat
  deriving DecidableEq, Repr

/-- The machine right after power-on and reset (10_state.md R44, 70_reset_and_hazards.md R313). No memory byte is
listed: `MEM[0x000..0x04F]` is the font and every other byte 0. `draws` is 0 by DESIGN CHOICE (log entry 2). -/
def State.reset : State where
  v := Vector.replicate 16 0
  i := 0
  pc := 0x200
  sp := 0
  stack := Vector.replicate 16 0
  dt := 0
  st := 0
  mem := []
  fb := Vector.replicate 32 (Vector.replicate 64 false)
  key := Vector.replicate 16 false
  status := .running
  wx := 0
  acc := 0
  draws := 0

end Sys2Proof.Machine
end

