-- ==== Sys2Proof/Machine/Flags.lean ====
section
/-!
DEFINITION. The flag computations: VF is the only flag, and a flag write stores the byte 0 or 1 (10_state.md R23).
Every flag is a function of the operand values read before the instruction (42_load_alu.md R160, R173).
-/

namespace Sys2Proof.Machine

/-- The byte a flag write stores (R23). -/
def flagByte (b : Bool) : Byte := if b then 1 else 0

/-- `8xy4`: the unsigned sum exceeds 255 (R168). -/
def carryOut (a b : Byte) : Bool := decide (a.toNat + b.toNat > 255)

/-- `8xy5` and `8xy7`: the subtraction `a - b` needs no borrow (R169, R171). -/
def noBorrow (a b : Byte) : Bool := decide (a.toNat ≥ b.toNat)

/-- `8xy6`: the bit shifted out, bit 0 (R170). -/
def shiftedOutRight (a : Byte) : Bool := a.getLsbD 0

/-- `8xyE`: the bit shifted out, bit 7 (R172). -/
def shiftedOutLeft (a : Byte) : Bool := a.getLsbD 7

end Sys2Proof.Machine
end

