-- ==== Sys2Proof/Machine/Operands.lean ====
section
/-!
DEFINITION. The operand forms of the instruction set: how an immediate or a register value becomes the value an
instruction works on (30_encoding.md R97), the one data addressing mode (46_memory_ops.md R240), the key selector
(45_keypad_timers.md R220), the glyph address (43_index_random.md R192), the decimal digits (46_memory_ops.md R241)
and the bits and coordinates of a sprite (44_graphics.md R202 to R204).
-/

namespace Sys2Proof.Machine

/-- `zext_16(nnn)` (R97). -/
def zextAddr (nnn : Addr12) : Word := nnn.setWidth 16

/-- `zext_16(V[x])` (00_scope.md R8). -/
def zextByte (b : Byte) : Word := b.setWidth 16

/-- The address of the byte `I + k`, a natural number: no wrap at 12 or 16 bits (R240). -/
def dataAddr (base : Word) (k : Nat) : Nat := base.toNat + k

/-- The key a key-test instruction selects: the low nibble of its register (R220). -/
def keySelect (b : Byte) : Nib := b.setWidth 4

/-- The address of the glyph of a byte: the whole byte times 5 (R192). -/
def glyphAddr (b : Byte) : Word := zextByte b * 5

/-- The decimal digits of a byte, hundreds first, one per byte (R241). -/
def bcdDigits (b : Byte) : List Byte :=
  [BitVec.ofNat 8 (b.toNat / 100), BitVec.ofNat 8 (b.toNat / 10 % 10), BitVec.ofNat 8 (b.toNat % 10)]

/-- Bit `7 - col` of a sprite byte: the most significant bit is the leftmost pixel (R203). -/
def spriteBit (b : Byte) (col : Nat) : Bool := b.getLsbD (7 - col)

/-- The framebuffer column of a pixel: reduced modulo 64 after the addition (R204). -/
def pixelCol (x0 : Byte) (col : Nat) : Fin 64 := Fin.ofNat 64 (x0.toNat + col)

/-- The framebuffer row of a pixel: reduced modulo 32 after the addition (R204). -/
def pixelRow (y0 : Byte) (row : Nat) : Fin 32 := Fin.ofNat 32 (y0.toNat + row)

end Sys2Proof.Machine
end

