-- ==== Sys2Proof/Machine/Ops.lean ====
section
/-!
DEFINITION. The named operations over the state: registers, call stack, memory with its legality checks,
framebuffer, keypad, and the one operation that takes a fault. Every instruction and every boundary operation reads
and writes the state through these.
-/

namespace Sys2Proof.Machine

/-! ### One update per field -/

/-- `V[x]` (10_state.md R20). -/
def State.getV (s : State) (x : Nib) : Byte := s.v[x.toNat]

/-- `V[x] <- b` (R20). -/
def State.setV (s : State) (x : Nib) (b : Byte) : State := { s with v := s.v.set x.toNat b }

/-- `I <- a` (R27). -/
def State.setI (s : State) (a : Word) : State := { s with i := a }

/-- `pc <- a` (R25): what is written is not restricted, it is checked when used (R26). -/
def State.setPc (s : State) (a : Word) : State := { s with pc := a }

def State.setSp (s : State) (n : Byte) : State := { s with sp := n }

def State.setStack (s : State) (t : Vector Word 16) : State := { s with stack := t }

def State.setDt (s : State) (b : Byte) : State := { s with dt := b }

def State.setSt (s : State) (b : Byte) : State := { s with st := b }

def State.setMem (s : State) (m : Memory) : State := { s with mem := m }

def State.setFb (s : State) (f : Framebuffer) : State := { s with fb := f }

def State.setKeys (s : State) (k : Vector Bool 16) : State := { s with key := k }

def State.setStatus (s : State) (u : Status) : State := { s with status := u }

def State.setWx (s : State) (x : Nib) : State := { s with wx := x }

def State.setAcc (s : State) (q : Rat) : State := { s with acc := q }

def State.setDraws (s : State) (n : Nat) : State := { s with draws := n }

/-! ### The program counter, the flag, faults -/

/-- The pc two bytes on: the fetch increment (40_step_cycle.md R123), and what a taken skip adds to it
(10_state.md R25). Modulo 2^16. -/
def State.advancePc (s : State) : State := s.setPc (s.pc + 2)

/-- A skip: a further 2 when the condition holds (R25). -/
def State.skipIf (s : State) (c : Bool) : State := if c then s.advancePc else s

/-- `VF <- 1` or `0` (R23). -/
def State.setFlag (s : State) (b : Bool) : State := s.setV 15 (flagByte b)

/-- Fault entry, the hardware's only trap (60_exceptions.md R268): `STATUS <- Halted(F)` and nothing else. The pc is
whatever the phase that raises has left there. Nothing is saved, and there is no return but `Reset` (R269). -/
def State.raise (s : State) (f : HaltReason) : State := s.setStatus (.halted f)

/-- Check, then effect (20_memory.md R64): where the check raises, the fault is taken and the effect does not happen. -/
def State.unlessFault (s : State) (check : Option HaltReason) (effect : Host.Outcome State Fault Refusal) :
    Host.Outcome State Fault Refusal :=
  match check with
  | some f => .next (s.raise f)
  | none => effect

/-! ### The call stack -/

/-- `STACK[k]`, for `k` in 1..16 (10_state.md R29); there is no other slot. -/
def State.stackSlot (s : State) (k : Nat) : Option Word :=
  if k = 0 then none else s.stack[k - 1]?

/-- `STACK[k] <- w`, for `k` in 1..16 (R29). -/
def State.setStackSlot (s : State) (k : Nat) (w : Word) : State :=
  if k = 0 then s else s.setStack (s.stack.setIfInBounds (k - 1) w)

/-! ### Memory -/

/-- What a byte holds from power-on until something writes it (70_reset_and_hazards.md R313): the font below 0x50,
0 above. -/
def Memory.powerOn (a : Nat) : Byte := if h : a < 80 then Config.font[a] else 0

/-- `MEM[a]`, no legality check (the checks are `checkRead` and `checkFetch`). -/
def Memory.read : Memory → Nat → Byte
  | [], a => Memory.powerOn a
  | (b, w) :: m, a => if b = a then w else Memory.read m a

/-- The memory without any entry for `a`: `a` then reads as at power-on. -/
def Memory.erase (m : Memory) (a : Nat) : Memory := m.filter (fun c => decide (c.1 ≠ a))

/-- The entry `(a, w)` put before the first entry of a higher address. -/
def Memory.insert : Memory → Nat → Byte → Memory
  | [], a, w => [(a, w)]
  | (b, u) :: m, a, w => if a < b then (a, w) :: (b, u) :: m else (b, u) :: Memory.insert m a w

/-- `MEM[a] <- w`, no legality check (the check is `checkWrite`). Keeps the canonical form: `a` has at most one entry,
at its place, and none when `w` is what an unlisted address reads as. -/
def Memory.write (m : Memory) (a : Nat) (w : Byte) : Memory :=
  if w = Memory.powerOn a then Memory.erase m a else Memory.insert (Memory.erase m a) a w

/-- `MEM[base] <- bs[0]`, `MEM[base + 1] <- bs[1]`, and so on. -/
def Memory.writeBytes (m : Memory) (base : Nat) : List Byte → Memory
  | [] => m
  | b :: bs => Memory.writeBytes (Memory.write m base b) (base + 1) bs

/-- The font region as `Reset` leaves it, `MEM[k] <- FONT[k]` for `k` in 0..79 (70_reset_and_hazards.md R310): the
font is what an unlisted address there reads as, so its entries are dropped (DEDUCED, log entry 11). -/
def Memory.reseedFont (m : Memory) : Memory := m.filter (fun c => decide (80 ≤ c.1))

/-- The canonical form: addresses strictly rising from `lo` and inside the 4096 bytes, no entry equal to what an
unlisted address reads as. -/
def Memory.wfFrom : Nat → Memory → Bool
  | _, [] => true
  | lo, (a, w) :: m => decide (lo ≤ a) && decide (a < 4096) && decide (w ≠ Memory.powerOn a) && Memory.wfFrom (a + 1) m

/-- The canonical form of a memory. -/
def Memory.wf (m : Memory) : Bool := Memory.wfFrom 0 m

/-! ### The legality checks (20_memory.md R61 to R63): none, or the fault to raise -/

/-- `CheckRead(addr, n)` (R61). -/
def checkRead (addr n : Nat) : Option HaltReason :=
  if n = 0 then none
  else if addr + n - 1 > 0xFFF then some (.addressFault (max addr 0x1000))
  else none

/-- `CheckWrite(addr, n)` (R62). -/
def checkWrite (addr n : Nat) : Option HaltReason :=
  if n = 0 then none
  else if addr < 0x200 then some (.addressFault addr)
  else if addr + n - 1 > 0xFFF then some (.addressFault (max addr 0x1000))
  else none

/-- The check of `Fetch(addr)` (R63): an odd address, one below 0x200 or one above 0xFFE raises. -/
def checkFetch (addr : Word) : Option HaltReason :=
  if addr.getLsbD 0 = true ∨ addr.toNat < 0x200 ∨ addr.toNat > 0xFFE then some (.addressFault addr.toNat) else none

/-- The word `Fetch(addr)` returns: two bytes, big-endian (R63, R66). -/
def Memory.fetchWord (m : Memory) (addr : Word) : Word :=
  wordOfBytes (Memory.read m addr.toNat) (Memory.read m (addr.toNat + 1))

/-- Store an instruction word where the machine fetches it: high byte first (R66). -/
def Memory.placeWord (m : Memory) (addr : Word) (w : Word) : Memory :=
  Memory.writeBytes m addr.toNat (bytesOfWord w)

/-! ### Transfers between registers and memory -/

/-- `V[0]` to `V[x]`, in order (46_memory_ops.md R242). -/
def State.regsUpTo (s : State) (x : Nib) : List Byte := s.v.toList.take (x.toNat + 1)

/-- `V[k] <- MEM[base + k]` for the first `n` registers, in ascending order (R243). -/
def State.loadRegs (s : State) (base : Nat) (n : Nat) : State :=
  (List.range n).foldl (fun u k => u.setV (BitVec.ofNat 4 k) (Memory.read s.mem (base + k))) s

/-! ### The framebuffer -/

/-- `FB[r][c]` (10_state.md R37). -/
def Framebuffer.cell (f : Framebuffer) (r : Fin 32) (c : Fin 64) : Bool := f[r][c]

/-- `FB[r][c] <- FB[r][c] ^ 1`. -/
def Framebuffer.flip (f : Framebuffer) (r : Fin 32) (c : Fin 64) : Framebuffer :=
  f.set r (f[r].set c (!f[r][c]))

/-- Every cell 0. -/
def Framebuffer.clear : Framebuffer := Vector.replicate 32 (Vector.replicate 64 false)

/-- One pixel of a draw (44_graphics.md R202): a sprite bit of 1 notes a collision with an on cell, then flips it. -/
def drawPixel (x0 y0 : Byte) (b : Byte) (row : Nat) (acc : Framebuffer × Bool) (col : Nat) : Framebuffer × Bool :=
  if spriteBit b col then
    (Framebuffer.flip acc.1 (pixelRow y0 row) (pixelCol x0 col),
      acc.2 || Framebuffer.cell acc.1 (pixelRow y0 row) (pixelCol x0 col))
  else acc

/-- One row of a draw: columns 0 to 7 (R202). -/
def drawRow (m : Memory) (base : Word) (x0 y0 : Byte) (acc : Framebuffer × Bool) (row : Nat) : Framebuffer × Bool :=
  (List.range 8).foldl (drawPixel x0 y0 (Memory.read m (dataAddr base row)) row) acc

/-- The whole draw: rows 0 to `n - 1`; the framebuffer after it, and whether a cell went from 1 to 0 (R202). -/
def drawSprite (m : Memory) (base : Word) (x0 y0 : Byte) (n : Nat) (f : Framebuffer) : Framebuffer × Bool :=
  (List.range n).foldl (drawRow m base x0 y0) (f, false)

/-! ### The keypad -/

/-- `IsPressed(id)`, a pure query (60_exceptions.md R285): the selector the key-test instructions use. -/
def State.isPressed (s : State) (k : Nib) : Bool := s.key[k.toNat]

/-- `KEY[k] <- b` (R283). -/
def State.setKeyBit (s : State) (k : Nib) (b : Bool) : State := s.setKeys (s.key.set k.toNat b)

end Sys2Proof.Machine
end

