-- ==== Sys2Proof/Machine/ControlFlow.lean ====
section
/-!
DEFINITION. The control-flow instructions (41_control_flow.md R140 to R147): execute phase only, `pc` is already the
instruction's address + 2 (00_scope.md R14). No instruction here checks its target: the next fetch does
(10_state.md R26). The two key-conditional skips are in KeypadTimers.lean.
-/

namespace Sys2Proof.Machine

/-- `00EE` (R140): pops the pc; the slot keeps its content (10_state.md R29). -/
def execRet (s : State) : Host.Outcome State Fault Refusal :=
  if s.sp = 0 then .next (s.raise .stackUnderflow)
  else
    match s.stackSlot s.sp.toNat with
    | some t => .next ((s.setPc t).setSp (s.sp - 1))
    | none => .fault (.noStackSlot s.sp.toNat)

/-- `1nnn` (R141). -/
def execJp (nnn : Addr12) (s : State) : Host.Outcome State Fault Refusal :=
  .next (s.setPc (zextAddr nnn))

/-- `2nnn` (R142): pushes the post-fetch pc, then jumps. -/
def execCall (nnn : Addr12) (s : State) : Host.Outcome State Fault Refusal :=
  if s.sp = 16 then .next (s.raise .stackOverflow)
  else if s.sp.toNat < 16 then
    .next (((s.setSp (s.sp + 1)).setStackSlot (s.sp.toNat + 1) s.pc).setPc (zextAddr nnn))
  else .fault (.noStackSlot (s.sp.toNat + 1))

/-- `Bnnn` (R143): the offset register is always `V[0]`; the sum is not masked. -/
def execJpV0 (nnn : Addr12) (s : State) : Host.Outcome State Fault Refusal :=
  .next (s.setPc (zextAddr nnn + zextByte (s.getV 0)))

/-- `3xkk` (R144). -/
def execSeImm (x : Nib) (kk : Byte) (s : State) : Host.Outcome State Fault Refusal :=
  .next (s.skipIf (s.getV x == kk))

/-- `4xkk` (R145). -/
def execSneImm (x : Nib) (kk : Byte) (s : State) : Host.Outcome State Fault Refusal :=
  .next (s.skipIf (s.getV x != kk))

/-- `5xy0` (R146); the field `n` is ignored (30_encoding.md R105). -/
def execSeReg (x y : Nib) (s : State) : Host.Outcome State Fault Refusal :=
  .next (s.skipIf (s.getV x == s.getV y))

/-- `9xy0` (R147); the field `n` is ignored (30_encoding.md R105). -/
def execSneReg (x y : Nib) (s : State) : Host.Outcome State Fault Refusal :=
  .next (s.skipIf (s.getV x != s.getV y))

end Sys2Proof.Machine
end

