-- ==== Sys2Proof/Machine/Graphics.lean ====
section
/-!
DEFINITION. The graphics instructions (44_graphics.md R201, R202): the only instructions that write the framebuffer
(R200).
-/

namespace Sys2Proof.Machine

/-- `00E0` (R201). -/
def execCls (s : State) : Host.Outcome State Fault Refusal :=
  .next (s.setFb Framebuffer.clear)

/-- `Dxyn` (R202): the sprite bytes are checked first; VF is written once, after the last pixel. -/
def execDrw (x y n : Nib) (s : State) : Host.Outcome State Fault Refusal :=
  s.unlessFault (checkRead s.i.toNat n.toNat)
    (.next ((s.setFb (drawSprite s.mem s.i (s.getV x) (s.getV y) n.toNat s.fb).1).setFlag
      (drawSprite s.mem s.i (s.getV x) (s.getV y) n.toNat s.fb).2))

end Sys2Proof.Machine
end

