-- ==== Sys2Proof/Machine/IndexRandom.lean ====
section
/-!
DEFINITION. The address-register and random instructions (43_index_random.md R190 to R194). None of them accesses
memory, writes a flag or can fault.
-/

namespace Sys2Proof.Machine

/-- `Annn` (R190). -/
def execLdI (nnn : Addr12) (s : State) : Host.Outcome State Fault Refusal :=
  .next (s.setI (zextAddr nnn))

/-- `Fx1E` (R191): modulo 2^16, not masked to 12 bits, no flag. -/
def execAddI (x : Nib) (s : State) : Host.Outcome State Fault Refusal :=
  .next (s.setI (s.i + zextByte (s.getV x)))

/-- `Fx29` (R192): the whole byte times 5. -/
def execLdF (x : Nib) (s : State) : Host.Outcome State Fault Refusal :=
  .next (s.setI (glyphAddr (s.getV x)))

/-- `Cxkk` (R194): a fresh free byte (log entry 2), masked by `kk`. -/
def execRnd (x : Nib) (kk : Byte) (s : State) : Host.Outcome State Fault Refusal :=
  .next ((s.setV x (Config.draw s.draws &&& kk)).setDraws (s.draws + 1))

end Sys2Proof.Machine
end

