-- ==== Sys2Proof/Machine/KeypadTimers.lean ====
section
/-!
DEFINITION. The keypad and timer instructions (45_keypad_timers.md R220 to R226). None of them accesses memory, writes
a flag or can fault; none writes a key (R221).
-/

namespace Sys2Proof.Machine

/-- `Ex9E` (R221). -/
def execSkp (x : Nib) (s : State) : Host.Outcome State Fault Refusal :=
  .next (s.skipIf (s.isPressed (keySelect (s.getV x))))

/-- `ExA1` (R222). -/
def execSknp (x : Nib) (s : State) : Host.Outcome State Fault Refusal :=
  .next (s.skipIf (!s.isPressed (keySelect (s.getV x))))

/-- `Fx07` (R224). -/
def execLdVxDt (x : Nib) (s : State) : Host.Outcome State Fault Refusal :=
  .next (s.setV x s.dt)

/-- `Fx0A` (R223): latches `x` and waits; the key press that ends the wait is `SetKey`'s (60_exceptions.md R284). -/
def execLdVxK (x : Nib) (s : State) : Host.Outcome State Fault Refusal :=
  .next ((s.setWx x).setStatus .waiting)

/-- `Fx15` (R225): does not touch `ACC`. -/
def execLdDtVx (x : Nib) (s : State) : Host.Outcome State Fault Refusal :=
  .next (s.setDt (s.getV x))

/-- `Fx18` (R226). -/
def execLdStVx (x : Nib) (s : State) : Host.Outcome State Fault Refusal :=
  .next (s.setSt (s.getV x))

end Sys2Proof.Machine
end

