-- ==== Sys2Proof/Machine/LoadAlu.lean ====
section
/-!
DEFINITION. The load-immediate and ALU instructions (42_load_alu.md R162 to R172). Operands are read before any
write; an instruction that defines a flag writes its result first and the flag afterwards, so that with `x = 0xF` the
flag is what VF holds (R160). None of them can fault.
-/

namespace Sys2Proof.Machine

/-- The result to `V[x]`, then the flag to VF (R160). -/
def State.setResultAndFlag (s : State) (x : Nib) (result : Byte) (flag : Bool) : State :=
  (s.setV x result).setFlag flag

/-- `6xkk` (R162). -/
def execLdImm (x : Nib) (kk : Byte) (s : State) : Host.Outcome State Fault Refusal :=
  .next (s.setV x kk)

/-- `7xkk` (R163): no flag. -/
def execAddImm (x : Nib) (kk : Byte) (s : State) : Host.Outcome State Fault Refusal :=
  .next (s.setV x (s.getV x + kk))

/-- `8xy0` (R164). -/
def execLdReg (x y : Nib) (s : State) : Host.Outcome State Fault Refusal :=
  .next (s.setV x (s.getV y))

/-- `8xy1` (R165): no flag. -/
def execOrReg (x y : Nib) (s : State) : Host.Outcome State Fault Refusal :=
  .next (s.setV x (s.getV x ||| s.getV y))

/-- `8xy2` (R166): no flag. -/
def execAndReg (x y : Nib) (s : State) : Host.Outcome State Fault Refusal :=
  .next (s.setV x (s.getV x &&& s.getV y))

/-- `8xy3` (R167): no flag. -/
def execXorReg (x y : Nib) (s : State) : Host.Outcome State Fault Refusal :=
  .next (s.setV x (s.getV x ^^^ s.getV y))

/-- `8xy4` (R168): flag = carry out. -/
def execAddReg (x y : Nib) (s : State) : Host.Outcome State Fault Refusal :=
  .next (s.setResultAndFlag x (s.getV x + s.getV y) (carryOut (s.getV x) (s.getV y)))

/-- `8xy5` (R169): flag = no borrow in `V[x] - V[y]`. -/
def execSub (x y : Nib) (s : State) : Host.Outcome State Fault Refusal :=
  .next (s.setResultAndFlag x (s.getV x - s.getV y) (noBorrow (s.getV x) (s.getV y)))

/-- `8xy6` (R170): flag = old bit 0 of `V[x]`; the field `y` is ignored (30_encoding.md R100). -/
def execShr (x : Nib) (s : State) : Host.Outcome State Fault Refusal :=
  .next (s.setResultAndFlag x (s.getV x >>> 1) (shiftedOutRight (s.getV x)))

/-- `8xy7` (R171): flag = no borrow in `V[y] - V[x]`. -/
def execSubn (x y : Nib) (s : State) : Host.Outcome State Fault Refusal :=
  .next (s.setResultAndFlag x (s.getV y - s.getV x) (noBorrow (s.getV y) (s.getV x)))

/-- `8xyE` (R172): flag = old bit 7 of `V[x]`; the field `y` is ignored (30_encoding.md R100). -/
def execShl (x : Nib) (s : State) : Host.Outcome State Fault Refusal :=
  .next (s.setResultAndFlag x (s.getV x <<< 1) (shiftedOutLeft (s.getV x)))

end Sys2Proof.Machine
end

