-- ==== Sys2Proof/Machine/MemoryOps.lean ====
section
/-!
DEFINITION. The memory instructions (46_memory_ops.md R241 to R243). The whole range is checked before the first byte
moves (20_memory.md R64); `I` is never modified (R240).
-/

namespace Sys2Proof.Machine

/-- `Fx33` (R241): the three decimal digits of `V[x]`. -/
def execLdB (x : Nib) (s : State) : Host.Outcome State Fault Refusal :=
  s.unlessFault (checkWrite s.i.toNat 3)
    (.next (s.setMem (Memory.writeBytes s.mem s.i.toNat (bcdDigits (s.getV x)))))

/-- `Fx55` (R242): `V[0]` to `V[x]`, inclusive. -/
def execLdMem (x : Nib) (s : State) : Host.Outcome State Fault Refusal :=
  s.unlessFault (checkWrite s.i.toNat (x.toNat + 1))
    (.next (s.setMem (Memory.writeBytes s.mem s.i.toNat (s.regsUpTo x))))

/-- `Fx65` (R243): `V[0]` to `V[x]`, inclusive. -/
def execLdVxMem (x : Nib) (s : State) : Host.Outcome State Fault Refusal :=
  s.unlessFault (checkRead s.i.toNat (x.toNat + 1))
    (.next (s.loadRegs s.i.toNat (x.toNat + 1)))

end Sys2Proof.Machine
end

