-- ==== Sys2Proof/Machine/Cycle.lean ====
section
/-!
DEFINITION. The fetch-decode-execute cycle, `Step` (40_step_cycle.md R120 to R126).
-/

namespace Sys2Proof.Machine

/-- Phases 2 and 3, on a state whose pc is already incremented: decode the fetched word, then execute it; a word that
does not decode raises `DecodeFault(w)` with the increment kept (R124, R126). -/
def decodeAndExec (w : Word) (s : State) : Host.Outcome State Fault Refusal :=
  match decodeWord w with
  | some i => exec i s
  | none => .next (s.raise (.decodeFault w))

/-- Phases 1 to 3 (R123 to R125): the fetch check raises before the pc is incremented. -/
def runCycle (s : State) : Host.Outcome State Fault Refusal :=
  s.unlessFault (checkFetch s.pc) (decodeAndExec (Memory.fetchWord s.mem s.pc) s.advancePc)

/-- `Step` with its status gate: halted or waiting, nothing changes (R122). -/
def gatedCycle (s : State) : Host.Outcome State Fault Refusal :=
  match s.status with
  | .running => runCycle s
  | .waiting => .next s
  | .halted _ => .next s

/-- Where the next instruction is fetched from: the pc where a fetch from it is legal, else the program origin. -/
def State.fetchSite (s : State) : Word :=
  match checkFetch s.pc with
  | none => s.pc
  | some _ => 0x200

/-- The state with the word `w` stored where the next step fetches it, and able to fetch it: `STATUS` is `Running` and
the pc legal (DESIGN CHOICE, safe: log entry 8). -/
def State.withWord (s : State) (w : Word) : State :=
  ((s.setStatus .running).setPc s.fetchSite).setMem (Memory.placeWord s.mem s.fetchSite w)

end Sys2Proof.Machine
end

