-- ==== Sys2Proof/Machine/Step.lean ====
section
/-!
DEFINITION. The step, and the state with a given instruction where the step fetches its next one.
-/

namespace Sys2Proof.Machine

/-- `Step` (40_step_cycle.md R120 to R126). What it returns is the observation of `STATUS` afterwards (R121). -/
def step (s : State) : Host.Outcome State Fault Refusal := gatedCycle s

/-- `s` with the instruction whose bits are `w` (numbered as spec/opcode_table.json numbers them, those at and above
`nbits` 0) stored where `step` fetches its next instruction. -/
def State.withFetchWord (s : State) (nbits w : Nat) : State :=
  s.withWord (BitVec.ofNat 16 (w % 2 ^ nbits))

end Sys2Proof.Machine
end

