-- ==== Sys2Proof/Machine/Boundary.lean ====
section
/-!
DEFINITION. The boundary operations of the CORE (60_exceptions.md R286), beside `step`: `Load`, `Reset`,
`AdvanceTimers`, `SetKey`, `Framebuffer`, `ShouldPlayTone`. Each is atomic, and the host issues them in any order
(00_scope.md R13, 60_exceptions.md R291): a run of the machine is a list of operations (DESIGN CHOICE, log entry 6).
-/

namespace Sys2Proof.Machine

/-! ### Reset -/

/-- `Reset()` (70_reset_and_hazards.md R310): every register and store to its reset value, the font reseeded,
`MEM[0x050..0xFFF]` untouched (R311). The random source is not affected (R312): `draws` is kept. -/
def State.doReset (s : State) : State :=
  { State.reset with mem := Memory.reseedFont s.mem, draws := s.draws }

/-! ### Load -/

/-- `load(bytes) -> success|failure` (60_exceptions.md R289). -/
inductive LoadResult where
  | success
  | failure
  deriving DecidableEq, Repr

/-- The bytes `Load` has room for: 0x1000 - 0x200 (00_scope.md R4). -/
def maxImage : Nat := 3584

/-- `Load(bytes)` (R289): the image from 0x200 up, or failure with no change at all. -/
def State.load (s : State) (bytes : List Byte) : LoadResult × State :=
  if bytes.length > maxImage then (.failure, s)
  else (.success, s.setMem (Memory.writeBytes s.mem 0x200 bytes))

/-! ### The timer unit -/

/-- A timer's decrement: floor at 0 (60_exceptions.md R277). -/
def decFloor (b : Byte) : Byte := if b = 0 then 0 else b - 1

/-- `Tick()` (R277). -/
def State.tick (s : State) : State := (s.setDt (decFloor s.dt)).setSt (decFloor s.st)

/-- `AdvanceTimers(delta)` (R278), in every status (R279): at most one tick, any excess discarded; a negative `delta`
is rejected without effect. -/
def State.advanceTimers (s : State) (delta : Rat) : State :=
  if delta < 0 then s
  else if s.acc + delta ≥ 1 / 60 then s.tick.setAcc 0
  else s.setAcc (s.acc + delta)

/-! ### The keypad scanner -/

/-- The end of a wait (R284): the key's identifier to `V[WX]`, and `Running`. -/
def State.endWait (s : State) (k : Nib) : State := (s.setV s.wx (k.setWidth 8)).setStatus .running

/-- `SetKey(id, pressed)` (R283): an identifier outside 0..15 is rejected without effect. -/
def State.setKey (s : State) (id : Int) (pressed : Bool) : State :=
  if id < 0 ∨ id > 15 then s
  else
    let k := BitVec.ofNat 4 id.toNat
    let u := s.setKeyBit k pressed
    if pressed = true ∧ s.status = .waiting then u.endWait k else u

/-! ### Outputs (10_state.md R36) -/

/-- `Framebuffer()` (R287): the 2048 cells, read-only. -/
def State.framebuffer (s : State) : Framebuffer := s.fb

/-- `ShouldPlayTone()` (R288). -/
def State.shouldPlayTone (s : State) : Bool := decide (s.st.toNat > 0)

/-- What `Step` returns (40_step_cycle.md R121). -/
inductive StepResult where
  | continue_
  | waiting
  | halted (reason : HaltReason)
  deriving DecidableEq, Repr

/-- The observation of `STATUS` at the end of a step (R121). -/
def Status.observe : Status → StepResult
  | .running => .continue_
  | .waiting => .waiting
  | .halted r => .halted r

/-! ### All operations -/

/-- The boundary operations (R286). -/
inductive Op where
  | load (bytes : List Byte)
  | reset
  | step
  | advanceTimers (delta : Rat)
  | setKey (id : Int) (pressed : Bool)
  | framebuffer
  | shouldPlayTone
  deriving DecidableEq, Repr

/-- What an operation returns to the host. -/
inductive Response where
  | none
  | load (r : LoadResult)
  | step (r : StepResult)
  | framebuffer (f : Framebuffer)
  | shouldPlayTone (b : Bool)
  deriving DecidableEq, Repr

/-- The state after an operation. Only `Step` can stop, and only where Machine/State.lean's `Fault` says. -/
def applyOp (op : Op) (s : State) : Host.Outcome State Fault Refusal :=
  match op with
  | .load bytes => .next (s.load bytes).2
  | .reset => .next s.doReset
  | .step => step s
  | .advanceTimers delta => .next (s.advanceTimers delta)
  | .setKey id pressed => .next (s.setKey id pressed)
  | .framebuffer => .next s
  | .shouldPlayTone => .next s

/-- What an operation from `s`, which ended in `t`, returns to the host (R286). -/
def respond (op : Op) (s t : State) : Response :=
  match op with
  | .load bytes => .load (s.load bytes).1
  | .reset => .none
  | .step => .step t.status.observe
  | .advanceTimers _ => .none
  | .setKey _ _ => .none
  | .framebuffer => .framebuffer s.framebuffer
  | .shouldPlayTone => .shouldPlayTone s.shouldPlayTone

/-- A run: operations one after another, up to the first that stops (00_scope.md R13). -/
def runOps : List Op → State → Host.Outcome State Fault Refusal
  | [], s => .next s
  | op :: ops, s =>
    match applyOp op s with
    | .next t => runOps ops t
    | .fault r => .fault r
    | .refused r => .refused r

end Sys2Proof.Machine
end

