-- ==== Sys2Proof/Safety.lean ====
section
/-!
DEFINITION. The terms claims are stated in: what two states share (frames), the invariant of the machine, the
reachable states, and runs that keep a condition.
-/

namespace Sys2Proof.Machine

/-! ### Frames -/

/-- The pieces of state, one name each: the rows of the summary table of 10_state.md, and the model's `draws`. -/
inductive Field where
  | v | i | pc | sp | stack | dt | st | mem | fb | key | status | wx | acc | draws
  deriving DecidableEq, Repr

/-- The piece of state is the same in both states. Memory is compared byte by byte, by what a read gives. -/
def Field.same (s t : State) : Field → Prop
  | .v => t.v = s.v
  | .i => t.i = s.i
  | .pc => t.pc = s.pc
  | .sp => t.sp = s.sp
  | .stack => t.stack = s.stack
  | .dt => t.dt = s.dt
  | .st => t.st = s.st
  | .mem => ∀ a, Memory.read t.mem a = Memory.read s.mem a
  | .fb => t.fb = s.fb
  | .key => t.key = s.key
  | .status => t.status = s.status
  | .wx => t.wx = s.wx
  | .acc => t.acc = s.acc
  | .draws => t.draws = s.draws

/-- Every piece of state not in the list is the same in `t` as in `s`. -/
def SameExcept (changed : List Field) (s t : State) : Prop := ∀ f, f ∉ changed → Field.same s t f

/-- Every general register outside the list is the same in `t` as in `s`. -/
def SameRegsExcept (changed : List Nib) (s t : State) : Prop := ∀ r, r ∉ changed → t.getV r = s.getV r

/-- The general registers an instruction may write: its destination, and VF for an instruction that defines a flag
(10_state.md section 1, R23). The key press that ends a wait is no instruction's write (45_keypad_timers.md R223). -/
def writtenRegs : Instr → List Nib
  | .cls => []
  | .ret => []
  | .jp _ => []
  | .call _ => []
  | .seImm _ _ => []
  | .sneImm _ _ => []
  | .seReg _ _ _ => []
  | .ldImm x _ => [x]
  | .addImm x _ => [x]
  | .ldReg x _ => [x]
  | .orReg x _ => [x]
  | .andReg x _ => [x]
  | .xorReg x _ => [x]
  | .addReg x _ => [x, 15]
  | .sub x _ => [x, 15]
  | .shr x _ => [x, 15]
  | .subn x _ => [x, 15]
  | .shl x _ => [x, 15]
  | .sneReg _ _ _ => []
  | .ldI _ => []
  | .jpV0 _ => []
  | .rnd x _ => [x]
  | .drw _ _ _ => [15]
  | .skp _ => []
  | .sknp _ => []
  | .ldVxDt x => [x]
  | .ldVxK _ => []
  | .ldDtVx _ => []
  | .ldStVx _ => []
  | .addI _ => []
  | .ldF _ => []
  | .ldB _ => []
  | .ldMem _ => []
  | .ldVxMem x => (List.range (x.toNat + 1)).map (BitVec.ofNat 4)

/-- The pieces of state an instruction may write, the column "written by" of the summary table (10_state.md section 1).
`status` stands where the instruction can fault (60_exceptions.md R265) or wait. -/
def writtenFields : Instr → List Field
  | .cls => [.fb]
  | .ret => [.pc, .sp, .status]
  | .jp _ => [.pc]
  | .call _ => [.pc, .sp, .stack, .status]
  | .seImm _ _ => [.pc]
  | .sneImm _ _ => [.pc]
  | .seReg _ _ _ => [.pc]
  | .ldImm _ _ => [.v]
  | .addImm _ _ => [.v]
  | .ldReg _ _ => [.v]
  | .orReg _ _ => [.v]
  | .andReg _ _ => [.v]
  | .xorReg _ _ => [.v]
  | .addReg _ _ => [.v]
  | .sub _ _ => [.v]
  | .shr _ _ => [.v]
  | .subn _ _ => [.v]
  | .shl _ _ => [.v]
  | .sneReg _ _ _ => [.pc]
  | .ldI _ => [.i]
  | .jpV0 _ => [.pc]
  | .rnd _ _ => [.v, .draws]
  | .drw _ _ _ => [.v, .fb, .status]
  | .skp _ => [.pc]
  | .sknp _ => [.pc]
  | .ldVxDt _ => [.v]
  | .ldVxK _ => [.wx, .status]
  | .ldDtVx _ => [.dt]
  | .ldStVx _ => [.st]
  | .addI _ => [.i]
  | .ldF _ => [.i]
  | .ldB _ => [.mem, .status]
  | .ldMem _ => [.mem, .status]
  | .ldVxMem _ => [.v, .status]

/-- The addresses an instruction stores to, run from `s` (46_memory_ops.md R241, R242). -/
def StoresAt : Instr → State → Nat → Prop
  | .ldB _, s, a => s.i.toNat ≤ a ∧ a < s.i.toNat + 3
  | .ldMem x, s, a => s.i.toNat ≤ a ∧ a < s.i.toNat + (x.toNat + 1)
  | _, _, _ => False

/-! ### Sprites, in closed form -/

/-- Some sprite pixel whose bit is 1 lies on the cell `(r, c)` (44_graphics.md R202 to R204): row `row` of the sprite is
the byte at `base + row`, its bit `7 - col` the pixel in column `col`. -/
def SpriteCovers (m : Memory) (base : Word) (x0 y0 : Byte) (n : Nat) (r : Fin 32) (c : Fin 64) : Prop :=
  ∃ row col, row < n ∧ col < 8 ∧ (Memory.read m (base.toNat + row)).getLsbD (7 - col) = true ∧
    (y0.toNat + row) % 32 = r.val ∧ (x0.toNat + col) % 64 = c.val

/-! ### The invariant -/

/-- A reason the hardware can record (60_exceptions.md R261, R264). -/
def HaltReason.legal : HaltReason → Prop
  | .decodeFault w => decodeWord w = none
  | .stackUnderflow => True
  | .stackOverflow => True
  | .addressFault a => a ≤ 0x1000E

/-- What every operation keeps, from every state that has it. -/
structure State.Inv (s : State) : Prop where
  /-- The memory list is in its canonical form. -/
  memWf : Memory.wf s.mem = true
  /-- Font and reserved region hold what power-on left there: no instruction and no `Load` writes below 0x200
  (20_memory.md R60). -/
  lowMem : ∀ a, a < 0x200 → Memory.read s.mem a = Memory.powerOn a
  /-- `sp` is 0 to 16 (10_state.md R28). -/
  spLe : s.sp.toNat ≤ 16
  /-- Every return address on the stack is even and in 0x202..0x1000 (41_control_flow.md R142). -/
  frames : ∀ k w, 1 ≤ k → k ≤ s.sp.toNat → s.stackSlot k = some w →
    w.toNat % 2 = 0 ∧ 0x202 ≤ w.toNat ∧ w.toNat ≤ 0x1000
  /-- 0x10FE is the largest value `pc` can ever hold (41_control_flow.md R143). -/
  pcLe : s.pc.toNat ≤ 0x10FE
  /-- Between operations 0 ≤ ACC < 1/60 (10_state.md R34). -/
  accRange : 0 ≤ s.acc ∧ s.acc < 1 / 60
  /-- A recorded fault reason is one the hardware can record. -/
  reason : ∀ r, s.status = .halted r → r.legal

/-! ### Runs -/

/-- The instructions whose execution reads a device or the random source: the key level, `DT`, a random draw
(45_keypad_timers.md R227; `Fx0A` observes its key press in `SetKey`, not in its execution). -/
def readsEnvironment : Instr → Bool
  | .skp _ => true
  | .sknp _ => true
  | .ldVxDt _ => true
  | .rnd _ _ => true
  | _ => false

/-- The two states differ at most in what the environment drives: keys, timers, accumulator, random source. -/
def AlikeButEnvironment (s t : State) : Prop := SameExcept [.key, .dt, .st, .acc, .draws] s t

/-- The states of the hardware: power-on and whatever the boundary operations make of it (00_scope.md R13). -/
inductive Reachable : State → Prop where
  | powerOn : Reachable State.reset
  | op {s t : State} (op : Op) : Reachable s → applyOp op s = .next t → Reachable t

/-- `t` comes from `s` by boundary operations other than `Reset`, with `ok` true of every state on the way. -/
inductive RunsWhile (ok : State → Prop) : State → State → Prop where
  | refl (s : State) : RunsWhile ok s s
  | op {s t u : State} (op : Op) : RunsWhile ok s t → op ≠ .reset → applyOp op t = .next u → ok u → RunsWhile ok s u

/-- A safe step: it has a next state (the machine's own faults are next states, 60_exceptions.md R268). -/
def Completes (o : Host.Outcome State Fault Refusal) : Prop := ∃ t, o = .next t

end Sys2Proof.Machine
end

