-- ==== Sys2Proof/Certificates/Slice0/Obligations.lean ====
section
/-!
DEFINITION. The statements about the model, from the numbered rules of spec/. Every state `s` below is any state at all
unless a hypothesis says otherwise; `exec i s` is the execute phase, so `s.pc` is the instruction's address + 2
(00_scope.md R14). `SameExcept fs s t` says that `t` has every piece of state of `s` but those in `fs`, memory byte by
byte.
-/

open Sys2Proof Sys2Proof.Machine

/-! ### Encoding (30_encoding.md) -/

/-- O1. Decoding an encoded instruction gives it back, with every operand at every value, ignored fields included; in
bytes, the bytes after it are left over (R91 to R98). -/
def Obligations.DecodeOfEncode : Prop :=
  ∀ (i : Instr) (rest : List Byte),
    decodeWord (encode i) = some i ∧ decode (encodeBytes i ++ rest) = .ok (i, rest)

/-- O2. Encoding a decoded word gives the word back: no bit is dropped and no two words share an instruction. -/
def Obligations.EncodeOfDecode : Prop :=
  ∀ (w : Word) (i : Instr), decodeWord w = some i → encode i = w

/-- O3. "No two rows overlap, and any word matching no row is illegal" (R98). -/
def Obligations.OpcodeRowsDisjoint : Prop :=
  opcodeMap.Pairwise (fun r q => ∀ w, ¬ (r.hits w = true ∧ q.hits w = true)) ∧
    ∀ w, decodeWord w = none ↔ ∀ r ∈ opcodeMap, r.hits w = false

/-- O4. The illegal words, as R104 lists them, and what executing one does: `DecodeFault(w)` with the whole word. -/
def Obligations.IllegalWords : Prop :=
  (∀ w : Word, decodeWord w = none ↔
    let op := w.toNat / 4096
    (op = 0x0 ∧ w.toNat ≠ 0x00E0 ∧ w.toNat ≠ 0x00EE) ∨
    (op = 0x8 ∧ w.toNat % 16 ∈ [0x8, 0x9, 0xA, 0xB, 0xC, 0xD, 0xF]) ∨
    (op = 0xE ∧ w.toNat % 256 ≠ 0x9E ∧ w.toNat % 256 ≠ 0xA1) ∨
    (op = 0xF ∧ w.toNat % 256 ∉ [0x07, 0x0A, 0x15, 0x18, 0x1E, 0x29, 0x33, 0x55, 0x65])) ∧
  ∀ (s : State) (w : Word), s.status = .running → s.pc.toNat % 2 = 0 → 0x200 ≤ s.pc.toNat → s.pc.toNat ≤ 0xFFE →
    w.toNat = (Memory.read s.mem s.pc.toNat).toNat * 256 + (Memory.read s.mem (s.pc.toNat + 1)).toNat →
    decodeWord w = none →
    ∃ t, step s = .next t ∧ t.status = .halted (.decodeFault w) ∧ t.pc = s.pc + 2 ∧ SameExcept [.pc, .status] s t

/-- O5. A word of each of the sixteen families (00_scope.md R15), written out from the formats of R92 to R96, and what it
decodes to; a sanity statement. -/
def Obligations.SampleWordsDecode : Prop :=
  decodeWord 0b0000000011100000 = some .cls ∧
  decodeWord 0b0001101010111100 = some (.jp 0xABC) ∧
  decodeWord 0b0010001100000000 = some (.call 0x300) ∧
  decodeWord 0b0011101000010010 = some (.seImm 0xA 0x12) ∧
  decodeWord 0b0100101000010010 = some (.sneImm 0xA 0x12) ∧
  decodeWord 0b0101000100100000 = some (.seReg 0x1 0x2 0x0) ∧
  decodeWord 0b0110101000010010 = some (.ldImm 0xA 0x12) ∧
  decodeWord 0b0111000100000101 = some (.addImm 0x1 0x05) ∧
  decodeWord 0b1000000100100101 = some (.sub 0x1 0x2) ∧
  decodeWord 0b1001000100100000 = some (.sneReg 0x1 0x2 0x0) ∧
  decodeWord 0b1010001100000000 = some (.ldI 0x300) ∧
  decodeWord 0b1011001100000000 = some (.jpV0 0x300) ∧
  decodeWord 0b1100000100001111 = some (.rnd 0x1 0x0F) ∧
  decodeWord 0b1101000100100101 = some (.drw 0x1 0x2 0x5) ∧
  decodeWord 0b1110000010011110 = some (.skp 0x0) ∧
  decodeWord 0b1111001100001010 = some (.ldVxK 0x3) ∧
  decodeWord 0b1111001101010101 = some (.ldMem 0x3)

/-- O6. The don't-care bits: `5xyN` and `9xyN` execute as `5xy0` and `9xy0` (R105), and `8xy6` and `8xyE` execute the
same for every `y` (R100). The rule marks this as its decision D25. -/
def Obligations.IgnoredFieldsDoNotMatter : Prop :=
  (∀ x y n : Nib, decodeWord ((0x5 : Nib) ++ x ++ y ++ n) = some (.seReg x y n) ∧
    decodeWord ((0x9 : Nib) ++ x ++ y ++ n) = some (.sneReg x y n)) ∧
  ∀ (x y y' n : Nib) (s : State),
    exec (.seReg x y n) s = exec (.seReg x y 0) s ∧ exec (.sneReg x y n) s = exec (.sneReg x y 0) s ∧
    exec (.shr x y) s = exec (.shr x y') s ∧ exec (.shl x y) s = exec (.shl x y') s

/-! ### The cycle (40_step_cycle.md, 60_exceptions.md) -/

/-- O7. A step runs the decoded instruction: where the bytes at a legal pc decode to `i`, the step is `exec i` on the
state whose pc is 2 further on and which is otherwise the same (R123 to R126). -/
def Obligations.StepRunsDecodedInstruction : Prop :=
  ∀ (s : State) (i : Instr), s.status = .running →
    s.pc.toNat % 2 = 0 → 0x200 ≤ s.pc.toNat → s.pc.toNat ≤ 0xFFE →
    decode [Memory.read s.mem s.pc.toNat, Memory.read s.mem (s.pc.toNat + 1)] = .ok (i, []) →
    step s = exec i s.advancePc ∧ s.advancePc.pc.toNat = s.pc.toNat + 2 ∧ SameExcept [.pc] s s.advancePc

/-- O8. The status gate (R122, decision D24): halted or waiting, a step changes nothing and returns the status. -/
def Obligations.StepGate : Prop :=
  (∀ (s : State) (r : HaltReason), s.status = .halted r →
    step s = .next s ∧ respond .step s s = .step (.halted r)) ∧
  ∀ s : State, s.status = .waiting → step s = .next s ∧ respond .step s s = .step .waiting

/-- O9. The fetch (20_memory.md R63): from an odd address, one below 0x200 or one above 0xFFE it raises
`AddressFault(pc)`, and the pc is not incremented; from any other it returns the two bytes, big-endian. -/
def Obligations.FetchCheckedAndBigEndian : Prop :=
  (∀ s : State, s.status = .running →
    (s.pc.toNat % 2 = 1 ∨ s.pc.toNat < 0x200 ∨ 0xFFE < s.pc.toNat) →
    ∃ t, step s = .next t ∧ t.status = .halted (.addressFault s.pc.toNat) ∧ SameExcept [.status] s t) ∧
  (∀ a : Word, a.toNat % 2 = 0 → 0x200 ≤ a.toNat → a.toNat ≤ 0xFFE → checkFetch a = none) ∧
  ∀ (m : Memory) (a : Word), (Memory.fetchWord m a).toNat =
    (Memory.read m a.toNat).toNat * 256 + (Memory.read m (a.toNat + 1)).toNat

/-- O10. Fault entry (60_exceptions.md R268, decision D27): after a step that halts a running machine, everything is as
before but `STATUS` and the pc, which is the old pc for a fetch fault and the old pc + 2 for any other; the step returns
`Halted` with the fault. -/
def Obligations.FaultEntryPrecise : Prop :=
  ∀ (s t : State) (f : HaltReason), s.status = .running → step s = .next t → t.status = .halted f →
    SameExcept [.status, .pc] s t ∧ (t.pc = if checkFetch s.pc = none then s.pc + 2 else s.pc) ∧
      respond .step s t = .step (.halted f)

/-- O11. Which instruction can raise which fault in its execute phase (60_exceptions.md R265, the spec's own
derivation). -/
def Obligations.WhichInstructionFaults : Prop :=
  ∀ (i : Instr) (s t : State) (f : HaltReason), s.status = .running → exec i s = .next t → t.status = .halted f →
    match f with
    | .decodeFault _ => False
    | .stackUnderflow => i = .ret
    | .stackOverflow => ∃ nnn, i = .call nnn
    | .addressFault _ => (∃ x y n, i = .drw x y n) ∨ (∃ x, i = .ldB x) ∨ (∃ x, i = .ldMem x) ∨ (∃ x, i = .ldVxMem x)

/-- O12. The transition table of `STATUS`, row by row (R130, decisions D23 and D24). A step from `Running` raises in the
fetch, in the decoding, or in the execution of an instruction other than `Fx0A`, and is then `Halted` with that fault;
it executes `Fx0A` and is then `Waiting`; or it is `Running`. -/
def Obligations.StatusTransitions : Prop :=
  ∀ (op : Op) (s t : State), applyOp op s = .next t →
    (op = .reset → t.status = .running) ∧
    (op ≠ .reset → ∀ f, s.status = .halted f → t.status = .halted f) ∧
    (s.status = .running → op = .step →
      (∀ f, checkFetch s.pc = some f → t.status = .halted f) ∧
      (checkFetch s.pc = none → decodeWord (Memory.fetchWord s.mem s.pc) = none →
        t.status = .halted (.decodeFault (Memory.fetchWord s.mem s.pc))) ∧
      (checkFetch s.pc = none → ∀ x, decodeWord (Memory.fetchWord s.mem s.pc) = some (.ldVxK x) →
        t.status = .waiting) ∧
      (checkFetch s.pc = none → ∀ i, decodeWord (Memory.fetchWord s.mem s.pc) = some i → (∀ x, i ≠ .ldVxK x) →
        t.status = .running ∨ ∃ f, t = s.advancePc.raise f ∧ t.status = .halted f)) ∧
    (s.status = .running → op ≠ .step → t.status = .running) ∧
    (s.status = .waiting → op = .step → t = s) ∧
    (s.status = .waiting → op ≠ .reset → (∀ id, 0 ≤ id → id ≤ 15 → op ≠ .setKey id true) → t.status = .waiting) ∧
    (s.status = .waiting → ∀ id : Int, 0 ≤ id → id ≤ 15 → op = .setKey id true →
      t.status = .running ∧ (t.getV s.wx).toNat = id.toNat)

/-- O13. What a step never does (R129): it never changes a key or the accumulator, and it never decrements a timer: a
timer changes only where `Fx15` or `Fx18` writes it. -/
def Obligations.StepNeverTicks : Prop :=
  ∀ s t : State, step s = .next t →
    t.key = s.key ∧ t.acc = s.acc ∧
    (t.dt = s.dt ∨ ∃ x, decodeWord (Memory.fetchWord s.mem s.pc) = some (.ldDtVx x) ∧ t.dt = s.getV x) ∧
    (t.st = s.st ∨ ∃ x, decodeWord (Memory.fetchWord s.mem s.pc) = some (.ldStVx x) ∧ t.st = s.getV x)

/-! ### Frames of all instructions -/

/-- O14. Every instruction writes only the pieces of state that the summary table of 10_state.md says it writes, only the
registers that are its destinations, and only the bytes it stores to. -/
def Obligations.EveryInstructionFrame : Prop :=
  ∀ (i : Instr) (s t : State), exec i s = .next t →
    SameExcept (writtenFields i) s t ∧ SameRegsExcept (writtenRegs i) s t ∧
    ∀ a, ¬ StoresAt i s a → Memory.read t.mem a = Memory.read s.mem a

/-- O15. VF as a flag (10_state.md R23, decision D10): an instruction of the list leaves 0 or 1 in VF whenever it does
not fault; every other instruction leaves VF unchanged unless it names VF as its destination. -/
def Obligations.FlagWriters : Prop :=
  ∀ (i : Instr) (s t : State), exec i s = .next t →
    ((∃ x y, i = .addReg x y ∨ i = .sub x y ∨ i = .shr x y ∨ i = .subn x y ∨ i = .shl x y) →
      t.getV 15 = 0 ∨ t.getV 15 = 1) ∧
    ((∃ x y n, i = .drw x y n) → (∃ f, t = s.raise f) ∨ t.getV 15 = 0 ∨ t.getV 15 = 1) ∧
    ((15 : Nib) ∉ writtenRegs i → t.getV 15 = s.getV 15)

/-- O16. No step and no `Load` changes a byte below 0x200: font and reserved region are read-only (20_memory.md R60, R62). -/
def Obligations.LowMemoryReadOnly : Prop :=
  (∀ s t : State, step s = .next t → ∀ a, a < 0x200 → Memory.read t.mem a = Memory.read s.mem a) ∧
  ∀ (s : State) (bytes : List Byte) (a : Nat), a < 0x200 →
    Memory.read (s.load bytes).2.mem a = Memory.read s.mem a

/-! ### Control flow (41_control_flow.md) -/

/-- O17. `1nnn` (R141): pc is `nnn`, nothing else changes; a target that is odd or below 0x200 makes the next step raise. -/
def Obligations.JumpSetsPc : Prop :=
  ∀ (nnn : Addr12) (s : State), ∃ t, exec (.jp nnn) s = .next t ∧
    t.pc.toNat = nnn.toNat ∧ SameExcept [.pc] s t ∧
    (s.status = .running → nnn.toNat % 2 = 1 ∨ nnn.toNat < 0x200 →
      ∃ u, step t = .next u ∧ u.status = .halted (.addressFault nnn.toNat) ∧ SameExcept [.status] t u)

/-- O18. `Bnnn` (R143, decision D16): pc is `nnn + V[0]`, not masked; a sum that is odd, below 0x200 or above 0xFFE makes
the next step raise with that sum. -/
def Obligations.JumpV0SetsPc : Prop :=
  ∀ (nnn : Addr12) (s : State), ∃ t, exec (.jpV0 nnn) s = .next t ∧
    t.pc.toNat = nnn.toNat + (s.getV 0).toNat ∧ t.pc.toNat ≤ 0x10FE ∧ SameExcept [.pc] s t ∧
    (s.status = .running → t.pc.toNat % 2 = 1 ∨ t.pc.toNat < 0x200 ∨ 0xFFE < t.pc.toNat →
      ∃ u, step t = .next u ∧ u.status = .halted (.addressFault (nnn.toNat + (s.getV 0).toNat)) ∧
        SameExcept [.status] t u)

/-- O19. `2nnn` (R142, decisions D6 and D7): below 16 frames it pushes the post-fetch pc and jumps; a return taken next
restores both; a bad target makes the next step raise; the pushed value of a call fetched from `p` is even and in
0x202..0x1000. At 16 frames it raises `StackOverflow` with no other effect. -/
def Obligations.CallPushesOrOverflows : Prop :=
  (∀ (nnn : Addr12) (s : State), s.sp.toNat < 16 → ∃ t, exec (.call nnn) s = .next t ∧
    t.sp.toNat = s.sp.toNat + 1 ∧ t.stackSlot t.sp.toNat = some s.pc ∧ t.pc.toNat = nnn.toNat ∧
    (∀ k, k ≠ s.sp.toNat + 1 → t.stackSlot k = s.stackSlot k) ∧ SameExcept [.sp, .stack, .pc] s t ∧
    (∃ u, exec .ret t.advancePc = .next u ∧ u.pc = s.pc ∧ u.sp = s.sp) ∧
    (s.status = .running → nnn.toNat % 2 = 1 ∨ nnn.toNat < 0x200 →
      ∃ u, step t = .next u ∧ u.status = .halted (.addressFault nnn.toNat) ∧ SameExcept [.status] t u)) ∧
  (∀ (p : Word) (s : State), checkFetch p = none → s.pc = p + 2 →
    s.pc.toNat % 2 = 0 ∧ 0x202 ≤ s.pc.toNat ∧ s.pc.toNat ≤ 0x1000) ∧
  ∀ (nnn : Addr12) (s : State), s.sp.toNat = 16 → ∃ t, exec (.call nnn) s = .next t ∧
    t.status = .halted .stackOverflow ∧ SameExcept [.status] s t

/-- O20. `00EE` (R140): with 1 to 16 frames it pops the pc and keeps the slot; with none it raises `StackUnderflow` with
no other effect. -/
def Obligations.ReturnPopsOrUnderflows : Prop :=
  (∀ s : State, 1 ≤ s.sp.toNat → s.sp.toNat ≤ 16 → ∃ t, exec .ret s = .next t ∧
    s.stackSlot s.sp.toNat = some t.pc ∧ t.sp.toNat + 1 = s.sp.toNat ∧ SameExcept [.sp, .pc] s t) ∧
  ∀ s : State, s.sp.toNat = 0 → ∃ t, exec .ret s = .next t ∧
    t.status = .halted .stackUnderflow ∧ SameExcept [.status] s t

/-- O21. The model's own stop (log entry 4): with a stack pointer of 17 to 255, values R28 calls unreachable, `00EE` and
`2nnn` stop by name, because the slot they would use does not exist. A choice of the model. -/
def Obligations.NoSlotNoStep : Prop :=
  ∀ (nnn : Addr12) (s : State), 16 < s.sp.toNat →
    exec .ret s = .fault (.noStackSlot s.sp.toNat) ∧ exec (.call nnn) s = .fault (.noStackSlot (s.sp.toNat + 1))

/-- O22. `3xkk` and `4xkk` (R144, R145): a further 2 when the condition holds; nothing else changes; where that takes the pc
past 0xFFE, the next step raises. -/
def Obligations.SkipOnImmediate : Prop :=
  ∀ (x : Nib) (kk : Byte) (s : State),
    (∃ t, exec (.seImm x kk) s = .next t ∧ SameExcept [.pc] s t ∧
      (t.pc = if s.getV x = kk then s.pc + 2 else s.pc) ∧
      (s.status = .running → 0xFFE < t.pc.toNat →
        ∃ u, step t = .next u ∧ u.status = .halted (.addressFault t.pc.toNat) ∧ SameExcept [.status] t u)) ∧
    ∃ t, exec (.sneImm x kk) s = .next t ∧ SameExcept [.pc] s t ∧
      (t.pc = if s.getV x = kk then s.pc else s.pc + 2) ∧
      (s.status = .running → 0xFFE < t.pc.toNat →
        ∃ u, step t = .next u ∧ u.status = .halted (.addressFault t.pc.toNat) ∧ SameExcept [.status] t u)

/-- O23. `5xy0` and `9xy0` (R146, R147), for every value of the ignored field `n`. -/
def Obligations.SkipOnRegister : Prop :=
  ∀ (x y n : Nib) (s : State),
    (∃ t, exec (.seReg x y n) s = .next t ∧ SameExcept [.pc] s t ∧
      t.pc = if s.getV x = s.getV y then s.pc + 2 else s.pc) ∧
    ∃ t, exec (.sneReg x y n) s = .next t ∧ SameExcept [.pc] s t ∧
      t.pc = if s.getV x = s.getV y then s.pc else s.pc + 2

/-- O24. The pairing law (R149, the spec's own derivation): after a call from `s`, whatever operations but `Reset` come
between, as long as its frame is on the stack, the return from it restores the call's post-fetch pc and its stack
pointer. The last state `u` is the one the step hands to `00EE`, its pc already advanced. -/
def Obligations.CallReturnPairs : Prop :=
  ∀ (nnn : Addr12) (s t u : State), s.sp.toNat < 16 → exec (.call nnn) s = .next t →
    RunsWhile (fun r => s.sp.toNat < r.sp.toNat) t u → u.sp.toNat = s.sp.toNat + 1 →
    ∃ w, exec .ret u.advancePc = .next w ∧ w.pc = s.pc ∧ w.sp = s.sp

/-! ### Load-immediate and ALU (42_load_alu.md) -/

/-- O25. `6xkk` and `7xkk` (R162, R163): no flag; VF changes only where `x` names it. -/
def Obligations.ImmediateForms : Prop :=
  ∀ (x : Nib) (kk : Byte) (s : State),
    (∃ t, exec (.ldImm x kk) s = .next t ∧ SameExcept [.v] s t ∧
      ∀ r, t.getV r = if r = x then kk else s.getV r) ∧
    ∃ t, exec (.addImm x kk) s = .next t ∧ SameExcept [.v] s t ∧
      ∀ r, (t.getV r).toNat = if r = x then ((s.getV x).toNat + kk.toNat) % 256 else (s.getV r).toNat

/-- O26. `8xy0` to `8xy3` (R164 to R167, decision D10), bit by bit; no flag. -/
def Obligations.AssignAndLogic : Prop :=
  ∀ (x y : Nib) (s : State),
    (∃ t, exec (.ldReg x y) s = .next t ∧ SameExcept [.v] s t ∧
      ∀ r, t.getV r = if r = x then s.getV y else s.getV r) ∧
    (∃ t, exec (.orReg x y) s = .next t ∧ SameExcept [.v] s t ∧ SameRegsExcept [x] s t ∧
      ∀ b, (t.getV x).getLsbD b = ((s.getV x).getLsbD b || (s.getV y).getLsbD b)) ∧
    (∃ t, exec (.andReg x y) s = .next t ∧ SameExcept [.v] s t ∧ SameRegsExcept [x] s t ∧
      ∀ b, (t.getV x).getLsbD b = ((s.getV x).getLsbD b && (s.getV y).getLsbD b)) ∧
    ∃ t, exec (.xorReg x y) s = .next t ∧ SameExcept [.v] s t ∧ SameRegsExcept [x] s t ∧
      ∀ b, (t.getV x).getLsbD b = ((s.getV x).getLsbD b != (s.getV y).getLsbD b)

/-- O27. `8xy4` (R168, with the order of writes of R160): VF is the carry, whatever `x` is; where `x` is not VF, `V[x]` is
the sum mod 256. -/
def Obligations.AddWithCarryOut : Prop :=
  ∀ (x y : Nib) (s : State), ∃ t, exec (.addReg x y) s = .next t ∧ SameExcept [.v] s t ∧
    ∀ r, (t.getV r).toNat =
      if r = 15 then (if (s.getV x).toNat + (s.getV y).toNat > 255 then 1 else 0)
      else if r = x then ((s.getV x).toNat + (s.getV y).toNat) % 256
      else (s.getV r).toNat

/-- O28. `8xy5` (R169, with R160): VF is 1 iff no borrow. -/
def Obligations.SubtractNoBorrow : Prop :=
  ∀ (x y : Nib) (s : State), ∃ t, exec (.sub x y) s = .next t ∧ SameExcept [.v] s t ∧
    ∀ r, ((t.getV r).toNat : Int) =
      if r = 15 then (if (s.getV x).toNat ≥ (s.getV y).toNat then 1 else 0)
      else if r = x then ((s.getV x).toNat - (s.getV y).toNat : Int) % 256
      else (s.getV r).toNat

/-- O29. `8xy7` (R171, with R160; decision D11): the operands the other way round. -/
def Obligations.ReverseSubtractNoBorrow : Prop :=
  ∀ (x y : Nib) (s : State), ∃ t, exec (.subn x y) s = .next t ∧ SameExcept [.v] s t ∧
    ∀ r, ((t.getV r).toNat : Int) =
      if r = 15 then (if (s.getV y).toNat ≥ (s.getV x).toNat then 1 else 0)
      else if r = x then ((s.getV y).toNat - (s.getV x).toNat : Int) % 256
      else (s.getV r).toNat

/-- O30. `8xy6` and `8xyE` (R170, R172, with R160; decision D12): one place, zero fill, VF is the bit shifted out; `V[y]`
is neither read nor written (where `y` is neither `x` nor VF). -/
def Obligations.ShiftsByOne : Prop :=
  ∀ (x y : Nib) (s : State),
    (∃ t, exec (.shr x y) s = .next t ∧ SameExcept [.v] s t ∧
      ∀ r, (t.getV r).toNat =
        if r = 15 then (s.getV x).toNat % 2 else if r = x then (s.getV x).toNat / 2 else (s.getV r).toNat) ∧
    ∃ t, exec (.shl x y) s = .next t ∧ SameExcept [.v] s t ∧
      ∀ r, (t.getV r).toNat =
        if r = 15 then (s.getV x).toNat / 128 else if r = x then 2 * (s.getV x).toNat % 256 else (s.getV r).toNat

/-! ### Address register and random (43_index_random.md) -/

/-- O31. `Annn` (R190). -/
def Obligations.SetAddressRegister : Prop :=
  ∀ (nnn : Addr12) (s : State), ∃ t, exec (.ldI nnn) s = .next t ∧ t.i.toNat = nnn.toNat ∧ SameExcept [.i] s t

/-- O32. `Fx1E` (R191, decisions D10 and D13): modulo 2^16, no flag, no fault. -/
def Obligations.AddToAddressRegister : Prop :=
  ∀ (x : Nib) (s : State), ∃ t, exec (.addI x) s = .next t ∧
    t.i.toNat = (s.i.toNat + (s.getV x).toNat) % 65536 ∧ SameExcept [.i] s t

/-- O33. `Fx29` (R192, decision D14): the whole byte times 5. -/
def Obligations.GlyphAddress : Prop :=
  ∀ (x : Nib) (s : State), ∃ t, exec (.ldF x) s = .next t ∧
    t.i.toNat = 5 * (s.getV x).toNat ∧ SameExcept [.i] s t

/-- O34. The font idiom (R193, the spec's own derivation): after `Fx29` on a digit, the five bytes a draw of height 5
reads are that digit's glyph in `FONT`, whatever `FONT` is. -/
def Obligations.FontIdiom : Prop :=
  ∀ (x : Nib) (s : State), s.Inv → (s.getV x).toNat ≤ 15 → ∃ t, exec (.ldF x) s = .next t ∧
    ∀ k, k < 5 → Config.font[5 * (s.getV x).toNat + k]? = some (Memory.read t.mem (t.i.toNat + k))

/-- O35. `Cxkk` (R194, decision D17): the draw is a free value, `Config.draw` at the model's own counter, and the next draw
is another; a bit of the result is 0 wherever `kk` has a 0; `Reset` does not restart the draws. The counter is the
model's choice (log entry 2). -/
def Obligations.RandomMasked : Prop :=
  ∀ (x : Nib) (kk : Byte) (s : State), ∃ t, exec (.rnd x kk) s = .next t ∧
    t.getV x = Config.draw s.draws &&& kk ∧ t.draws = s.draws + 1 ∧
    (∀ b, kk.getLsbD b = false → (t.getV x).getLsbD b = false) ∧
    SameRegsExcept [x] s t ∧ SameExcept [.v, .draws] s t ∧ s.doReset.draws = s.draws

/-! ### Graphics (44_graphics.md) -/

/-- O36. `00E0` (R201): every cell 0, VF unchanged. -/
def Obligations.ClearScreen : Prop :=
  ∀ s : State, ∃ t, exec .cls s = .next t ∧
    (∀ r c, Framebuffer.cell t.fb r c = false) ∧ SameExcept [.fb] s t

/-- O37. `Dxyn` (R202 to R204; decisions D18 and D20): where the sprite bytes are readable, a cell is inverted iff a sprite
pixel lies on it, and VF is 1 iff such a cell was on; where they are not, `AddressFault(max(I, 0x1000))` and nothing
else. A height of 0 reads nothing and never faults (R206). -/
def Obligations.DrawSprite : Prop :=
  (∀ (x y n : Nib) (s : State), n = 0 ∨ s.i.toNat + n.toNat ≤ 0x1000 → ∃ t, exec (.drw x y n) s = .next t ∧
    (∀ r c, Framebuffer.cell t.fb r c = true ↔
      ((SpriteCovers s.mem s.i (s.getV x) (s.getV y) n.toNat r c ∧ Framebuffer.cell s.fb r c = false) ∨
        (¬ SpriteCovers s.mem s.i (s.getV x) (s.getV y) n.toNat r c ∧ Framebuffer.cell s.fb r c = true))) ∧
    (t.getV 15 = 1 ∨ t.getV 15 = 0) ∧
    (t.getV 15 = 1 ↔ ∃ r c, SpriteCovers s.mem s.i (s.getV x) (s.getV y) n.toNat r c ∧
      Framebuffer.cell s.fb r c = true) ∧
    SameRegsExcept [15] s t ∧ SameExcept [.v, .fb] s t) ∧
  ∀ (x y n : Nib) (s : State), n ≠ 0 → 0x1000 < s.i.toNat + n.toNat → ∃ t, exec (.drw x y n) s = .next t ∧
    t.status = .halted (.addressFault (max s.i.toNat 0x1000)) ∧ SameExcept [.status] s t

/-- O38. Drawing the same sprite twice at the same place (neither coordinate register VF) restores the framebuffer; the
second flag is 1 iff some sprite pixel lay on a cell that was off before the first draw (R205, the spec's own
derivation; the rejected half of §8 is 90_conflicts.md C5). -/
def Obligations.DrawTwiceRestores : Prop :=
  ∀ (x y n : Nib) (s : State), x ≠ 15 → y ≠ 15 → n = 0 ∨ s.i.toNat + n.toNat ≤ 0x1000 →
    ∃ t u, exec (.drw x y n) s = .next t ∧ exec (.drw x y n) t = .next u ∧ u.fb = s.fb ∧
      (u.getV 15 = 1 ↔ ∃ r c, SpriteCovers s.mem s.i (s.getV x) (s.getV y) n.toNat r c ∧
        Framebuffer.cell s.fb r c = false)

/-! ### Keypad and timers (45_keypad_timers.md, 60_exceptions.md) -/

/-- O39. `Ex9E` and `ExA1` (R220 to R222; decisions D21 and D22): the key is the low nibble of the register; no key is
written. -/
def Obligations.KeySkips : Prop :=
  ∀ (x k : Nib) (s : State), k.toNat = (s.getV x).toNat % 16 →
    (∃ t, exec (.skp x) s = .next t ∧ SameExcept [.pc] s t ∧
      t.pc = if s.isPressed k = true then s.pc + 2 else s.pc) ∧
    ∃ t, exec (.sknp x) s = .next t ∧ SameExcept [.pc] s t ∧
      t.pc = if s.isPressed k = true then s.pc else s.pc + 2

/-- O40. `Fx0A` (R223, decision D23): it latches `x` and waits; steps change nothing; releases and timer ticks do not end
the wait; the next press of a key in 0..15 writes the key's number to `V[x]` and ends it, with the pc still past the
instruction. -/
def Obligations.WaitForKey : Prop :=
  ∀ (x : Nib) (s : State), ∃ t, exec (.ldVxK x) s = .next t ∧
    t.status = .waiting ∧ t.wx = x ∧ SameExcept [.wx, .status] s t ∧ step t = .next t ∧
    (∀ d, (t.advanceTimers d).status = .waiting) ∧ t.doReset.status = .running ∧
    ∀ k : Nib,
      (t.setKey k.toNat false).status = .waiting ∧
      (t.setKey k.toNat true).status = .running ∧ (t.setKey k.toNat true).isPressed k = true ∧
      ((t.setKey k.toNat true).getV x).toNat = k.toNat ∧ SameRegsExcept [x] t (t.setKey k.toNat true) ∧
      SameExcept [.v, .key, .status] t (t.setKey k.toNat true)

/-- O41. `Fx07`, `Fx15`, `Fx18` (R224 to R226): they move a byte and touch nothing else, `ACC` included. -/
def Obligations.TimerMoves : Prop :=
  ∀ (x : Nib) (s : State),
    (∃ t, exec (.ldVxDt x) s = .next t ∧ t.getV x = s.dt ∧ SameRegsExcept [x] s t ∧ SameExcept [.v] s t) ∧
    (∃ t, exec (.ldDtVx x) s = .next t ∧ t.dt = s.getV x ∧ SameExcept [.dt] s t) ∧
    ∃ t, exec (.ldStVx x) s = .next t ∧ t.st = s.getV x ∧
      (t.shouldPlayTone = true ↔ (s.getV x).toNat ≠ 0) ∧ SameExcept [.st] s t

/-- O42. `AdvanceTimers` (R277, R278, decision D30): a negative delta changes nothing; below the threshold it accumulates;
at or past it there is exactly one tick, each timer floored at 0, and the accumulator is cleared. -/
def Obligations.AdvanceTimersTicks : Prop :=
  ∀ (s : State) (delta : Rat),
    (delta < 0 → s.advanceTimers delta = s) ∧
    (0 ≤ delta → s.acc + delta < 1 / 60 →
      (s.advanceTimers delta).acc = s.acc + delta ∧ SameExcept [.acc] s (s.advanceTimers delta)) ∧
    (0 ≤ delta → 1 / 60 ≤ s.acc + delta →
      (s.advanceTimers delta).acc = 0 ∧ (s.advanceTimers delta).dt.toNat = s.dt.toNat - 1 ∧
      (s.advanceTimers delta).st.toNat = s.st.toNat - 1 ∧ SameExcept [.acc, .dt, .st] s (s.advanceTimers delta))

/-- O43. `SetKey` (R283, R284; decisions D23 and D42): an identifier outside 0..15 changes nothing; otherwise the key takes
the state given and no other key changes; a press during a wait also writes `V[WX]` and resumes. -/
def Obligations.SetKeyEffects : Prop :=
  (∀ (s : State) (id : Int) (p : Bool), id < 0 ∨ 15 < id → s.setKey id p = s) ∧
  ∀ (s : State) (k : Nib) (p : Bool),
    (∀ j, (s.setKey k.toNat p).isPressed j = if j = k then p else s.isPressed j) ∧
    (¬ (p = true ∧ s.status = .waiting) → SameExcept [.key] s (s.setKey k.toNat p)) ∧
    (p = true → s.status = .waiting →
      (s.setKey k.toNat p).status = .running ∧ ((s.setKey k.toNat p).getV s.wx).toNat = k.toNat ∧
      SameRegsExcept [s.wx] s (s.setKey k.toNat p) ∧ SameExcept [.key, .v, .status] s (s.setKey k.toNat p))

/-! ### Memory instructions (46_memory_ops.md, 20_memory.md) -/

/-- O44. `Fx33` (R241): the three decimal digits at `I`, `I + 1`, `I + 2`, every other byte as before; outside
0x200..0xFFF it raises and stores nothing. -/
def Obligations.StoreBcd : Prop :=
  (∀ (x : Nib) (s : State), 0x200 ≤ s.i.toNat → s.i.toNat + 2 ≤ 0xFFF → ∃ t, exec (.ldB x) s = .next t ∧
    (Memory.read t.mem s.i.toNat).toNat = (s.getV x).toNat / 100 ∧
    (Memory.read t.mem (s.i.toNat + 1)).toNat = (s.getV x).toNat / 10 % 10 ∧
    (Memory.read t.mem (s.i.toNat + 2)).toNat = (s.getV x).toNat % 10 ∧
    (∀ a, a < s.i.toNat ∨ s.i.toNat + 2 < a → Memory.read t.mem a = Memory.read s.mem a) ∧
    SameExcept [.mem] s t) ∧
  ∀ (x : Nib) (s : State), s.i.toNat < 0x200 ∨ 0xFFF < s.i.toNat + 2 → ∃ t, exec (.ldB x) s = .next t ∧
    t.status = .halted (.addressFault (if s.i.toNat < 0x200 then s.i.toNat else max s.i.toNat 0x1000)) ∧
    SameExcept [.status] s t

/-- O45. `Fx55` (R242, decision D15): `V[k]` at `I + k` for `k` in 0..x, every other byte as before, `I` unchanged; outside
0x200..0xFFF it raises and stores nothing. -/
def Obligations.StoreRegisters : Prop :=
  (∀ (x : Nib) (s : State), 0x200 ≤ s.i.toNat → s.i.toNat + x.toNat ≤ 0xFFF → ∃ t, exec (.ldMem x) s = .next t ∧
    (∀ k : Nib, k.toNat ≤ x.toNat → Memory.read t.mem (s.i.toNat + k.toNat) = s.getV k) ∧
    (∀ a, a < s.i.toNat ∨ s.i.toNat + x.toNat < a → Memory.read t.mem a = Memory.read s.mem a) ∧
    SameExcept [.mem] s t) ∧
  ∀ (x : Nib) (s : State), s.i.toNat < 0x200 ∨ 0xFFF < s.i.toNat + x.toNat → ∃ t, exec (.ldMem x) s = .next t ∧
    t.status = .halted (.addressFault (if s.i.toNat < 0x200 then s.i.toNat else max s.i.toNat 0x1000)) ∧
    SameExcept [.status] s t

/-- O46. `Fx65` (R243, decision D15): `V[k]` is the byte at `I + k` for `k` in 0..x, registers above unchanged, `I` and
memory unchanged; past 0xFFF it raises and loads nothing. Reading below 0x200 is legal. -/
def Obligations.LoadRegisters : Prop :=
  (∀ (x : Nib) (s : State), s.i.toNat + x.toNat ≤ 0xFFF → ∃ t, exec (.ldVxMem x) s = .next t ∧
    (∀ k : Nib, t.getV k =
      if k.toNat ≤ x.toNat then Memory.read s.mem (s.i.toNat + k.toNat) else s.getV k) ∧
    SameExcept [.v] s t) ∧
  ∀ (x : Nib) (s : State), 0xFFF < s.i.toNat + x.toNat → ∃ t, exec (.ldVxMem x) s = .next t ∧
    t.status = .halted (.addressFault (max s.i.toNat 0x1000)) ∧ SameExcept [.status] s t

/-- O47. Dump and load (R244, the spec's own derivation): after `Fx55`, whatever happens to the registers, `Fx65` with the
same `x` restores `V[0]` to `V[x]`, provided `I` and the stored bytes are as the dump left them. -/
def Obligations.DumpLoadRoundTrip : Prop :=
  ∀ (x : Nib) (s t u : State), 0x200 ≤ s.i.toNat → s.i.toNat + x.toNat ≤ 0xFFF → exec (.ldMem x) s = .next t →
    u.i = t.i → (∀ a, s.i.toNat ≤ a → a ≤ s.i.toNat + x.toNat → Memory.read u.mem a = Memory.read t.mem a) →
    ∃ w, exec (.ldVxMem x) u = .next w ∧ ∀ k : Nib, k.toNat ≤ x.toNat → w.getV k = s.getV k

/-- O48. Stores and fetches are coherent (20_memory.md R76, decision D36): the very next fetch from two bytes that `Fx55`
has just stored returns those bytes. -/
def Obligations.StoredCodeIsFetched : Prop :=
  ∀ (x k : Nib) (a : Word) (s t : State), 0x200 ≤ s.i.toNat → s.i.toNat + x.toNat ≤ 0xFFF →
    exec (.ldMem x) s = .next t → k.toNat < x.toNat → a.toNat = s.i.toNat + k.toNat →
    Memory.fetchWord t.mem a = wordOfBytes (s.getV k) (s.getV (k + 1))

/-! ### Boundary operations, reset -/

/-- O49. `Load` (60_exceptions.md R289, decision D34): more than 3584 bytes are refused with no change; otherwise byte `k`
of the image is at 0x200 + k, every other byte is as before, and nothing else changes. -/
def Obligations.LoadWritesImage : Prop :=
  (∀ (s : State) (bytes : List Byte), 3584 < bytes.length → s.load bytes = (.failure, s)) ∧
  ∀ (s : State) (bytes : List Byte), bytes.length ≤ 3584 →
    (s.load bytes).1 = .success ∧
    (∀ k, k < bytes.length → bytes[k]? = some (Memory.read (s.load bytes).2.mem (0x200 + k))) ∧
    (∀ a, a < 0x200 ∨ 0x200 + bytes.length ≤ a → Memory.read (s.load bytes).2.mem a = Memory.read s.mem a) ∧
    SameExcept [.mem] s (s.load bytes).2

/-- O50. `Reset` (70_reset_and_hazards.md R310, R311; decisions D31 and D33): registers, stack, timers, framebuffer, keys 0,
`pc` 0x200, `STATUS` running, the font reseeded with the open parameter `FONT` (R5), every other byte of memory
untouched. -/
def Obligations.ResetEffects : Prop :=
  ∀ s : State,
    (∀ r, s.doReset.getV r = 0) ∧ s.doReset.i = 0 ∧ s.doReset.pc = 0x200 ∧ s.doReset.sp = 0 ∧
    (∀ k, 1 ≤ k → k ≤ 16 → s.doReset.stackSlot k = some 0) ∧ s.doReset.dt = 0 ∧ s.doReset.st = 0 ∧
    (∀ r c, Framebuffer.cell s.doReset.fb r c = false) ∧ (∀ k, s.doReset.isPressed k = false) ∧
    s.doReset.status = .running ∧ s.doReset.wx = 0 ∧ s.doReset.acc = 0 ∧
    (∀ k, k < 80 → Config.font[k]? = some (Memory.read s.doReset.mem k)) ∧
    ∀ a, 80 ≤ a → Memory.read s.doReset.mem a = Memory.read s.mem a

/-- O51. The power-on state (10_state.md R44, 70_reset_and_hazards.md R313): the reset values, `FONT` in 0x000..0x04F and 0
in every other byte. -/
def Obligations.PowerOnState : Prop :=
  (∀ r, State.reset.getV r = 0) ∧ State.reset.i = 0 ∧ State.reset.pc = 0x200 ∧ State.reset.sp = 0 ∧
  (∀ k, 1 ≤ k → k ≤ 16 → State.reset.stackSlot k = some 0) ∧ State.reset.dt = 0 ∧ State.reset.st = 0 ∧
  (∀ r c, Framebuffer.cell State.reset.fb r c = false) ∧ (∀ k, State.reset.isPressed k = false) ∧
  State.reset.status = .running ∧ State.reset.wx = 0 ∧ State.reset.acc = 0 ∧
  (∀ k, k < 80 → Config.font[k]? = some (Memory.read State.reset.mem k)) ∧
  ∀ a, 80 ≤ a → Memory.read State.reset.mem a = 0

/-! ### Invariants and whole-machine rules -/

/-- O52. The invariant holds at power-on. -/
def Obligations.InvAtPowerOn : Prop := State.reset.Inv

/-- O53. Every step keeps the invariant: canonical memory, font and reserved region as at power-on, `sp` at most 16, every
return address on the stack even and in 0x202..0x1000, `pc` at most 0x10FE, 0 ≤ ACC < 1/60, a recorded fault reason one
the hardware can record. -/
def Obligations.StepKeepsInv : Prop :=
  ∀ s t : State, s.Inv → step s = .next t → t.Inv

/-- O54. Every boundary operation keeps the invariant. -/
def Obligations.OperationsKeepInv : Prop :=
  ∀ (op : Op) (s t : State), s.Inv → applyOp op s = .next t → t.Inv

/-- O55. The machine never gets stuck: from a state with the invariant every boundary operation has a next state. -/
def Obligations.OperationsComplete : Prop :=
  ∀ (op : Op) (s : State), s.Inv → Completes (applyOp op s)

/-- O56. What no reachable state exceeds: 16 frames (10_state.md R28) and a pc of 0x10FE (41_control_flow.md R143); and the
font, in every reachable state, is `FONT`. -/
def Obligations.ReachableBounds : Prop :=
  ∀ s : State, Reachable s → s.sp.toNat ≤ 16 ∧ s.pc.toNat ≤ 0x10FE ∧
    ∀ k, k < 80 → Config.font[k]? = some (Memory.read s.mem k)

/-- O57. Isolation from the environment (45_keypad_timers.md R227, the spec's own derivation): but for the key tests, the
read of `DT` and the random draw, an instruction does the same in two states that differ only in keys, timers,
accumulator and random source. -/
def Obligations.EnvironmentOnlyWhereRead : Prop :=
  ∀ (i : Instr) (s s' t : State), readsEnvironment i = false → AlikeButEnvironment s s' → exec i s = .next t →
    ∃ t', exec i s' = .next t' ∧ AlikeButEnvironment t t'
end

