-- ==== Sys2Proof/Laws/Encoding.lean ====
section
/-!
SUPPORT. The bits of the encoded formats, and what the masks of the opcode map leave of them.
-/

namespace Sys2Proof

theorem getLsbD_formatNNN (op : Nib) (nnn : Addr12) (j : Nat) :
    (formatNNN op nnn).getLsbD j = if j < 12 then nnn.getLsbD j else op.getLsbD (j - 12) := by
  show (op ++ nnn : BitVec (4 + 12)).getLsbD j = _
  rw [BitVec.getLsbD_append]

theorem getLsbD_formatXKK (op x : Nib) (kk : Byte) (j : Nat) :
    (formatXKK op x kk).getLsbD j =
      if j < 8 then kk.getLsbD j else if j < 12 then x.getLsbD (j - 8) else op.getLsbD (j - 12) := by
  show ((op ++ x : BitVec (4 + 4)) ++ kk : BitVec (4 + 4 + 8)).getLsbD j = _
  rw [BitVec.getLsbD_append, BitVec.getLsbD_append]
  split
  · rfl
  · have h : (j - 8 < 4) = (j < 12) := by simp; omega
    simp only [h, Nat.sub_sub]

theorem getLsbD_formatXYN (op x y n : Nib) (j : Nat) :
    (formatXYN op x y n).getLsbD j =
      if j < 4 then n.getLsbD j else if j < 8 then y.getLsbD (j - 4)
      else if j < 12 then x.getLsbD (j - 8) else op.getLsbD (j - 12) := by
  show (((op ++ x : BitVec (4 + 4)) ++ y : BitVec (4 + 4 + 4)) ++ n : BitVec (4 + 4 + 4 + 4)).getLsbD j = _
  rw [BitVec.getLsbD_append, BitVec.getLsbD_append, BitVec.getLsbD_append]
  by_cases h4 : j < 4
  · rw [if_pos h4, if_pos h4]
  · rw [if_neg h4, if_neg h4]
    by_cases h8 : j < 8
    · rw [if_pos h8, if_pos (by omega)]
    · rw [if_neg h8, if_neg (by omega)]
      by_cases h12 : j < 12
      · rw [if_pos h12, if_pos (by omega), Nat.sub_sub]
      · rw [if_neg h12, if_neg (by omega), Nat.sub_sub, Nat.sub_sub]

theorem formatNNN_and (op : Nib) (nnn : Addr12) : formatNNN op nnn &&& 0xF000#16 = formatNNN op 0 := by
  apply BitVec.eq_of_getLsbD_eq
  intro j hj
  simp only [BitVec.getLsbD_and, getLsbD_formatNNN]
  interval_cases j <;> simp

theorem formatXKK_and_family (op x : Nib) (kk : Byte) : formatXKK op x kk &&& 0xF000#16 = formatXKK op 0 0 := by
  apply BitVec.eq_of_getLsbD_eq
  intro j hj
  simp only [BitVec.getLsbD_and, getLsbD_formatXKK]
  interval_cases j <;> simp

theorem formatXKK_and_sub (op x : Nib) (kk : Byte) : formatXKK op x kk &&& 0xF0FF#16 = formatXKK op 0 kk := by
  apply BitVec.eq_of_getLsbD_eq
  intro j hj
  simp only [BitVec.getLsbD_and, getLsbD_formatXKK]
  interval_cases j <;> simp

theorem formatXYN_and_family (op x y n : Nib) : formatXYN op x y n &&& 0xF000#16 = formatXYN op 0 0 0 := by
  apply BitVec.eq_of_getLsbD_eq
  intro j hj
  simp only [BitVec.getLsbD_and, getLsbD_formatXYN]
  interval_cases j <;> simp

theorem formatXYN_and_sub (op x y n : Nib) : formatXYN op x y n &&& 0xF00F#16 = formatXYN op 0 0 n := by
  apply BitVec.eq_of_getLsbD_eq
  intro j hj
  simp only [BitVec.getLsbD_and, getLsbD_formatXYN]
  interval_cases j <;> simp

end Sys2Proof
end

