-- ==== Sys2Proof/Laws/State.lean ====
section
/-!
SUPPORT. One lemma per field per update of State, true by unfolding, so that no later proof unfolds a record update.
-/

namespace Sys2Proof.Machine

variable (s : State)

@[simp] theorem State.setV_v (x : Nib) (b : Byte) : (s.setV x b).v = s.v.set x.toNat b := rfl
@[simp] theorem State.setV_i (x : Nib) (b : Byte) : (s.setV x b).i = s.i := rfl
@[simp] theorem State.setV_pc (x : Nib) (b : Byte) : (s.setV x b).pc = s.pc := rfl
@[simp] theorem State.setV_sp (x : Nib) (b : Byte) : (s.setV x b).sp = s.sp := rfl
@[simp] theorem State.setV_stack (x : Nib) (b : Byte) : (s.setV x b).stack = s.stack := rfl
@[simp] theorem State.setV_dt (x : Nib) (b : Byte) : (s.setV x b).dt = s.dt := rfl
@[simp] theorem State.setV_st (x : Nib) (b : Byte) : (s.setV x b).st = s.st := rfl
@[simp] theorem State.setV_mem (x : Nib) (b : Byte) : (s.setV x b).mem = s.mem := rfl
@[simp] theorem State.setV_fb (x : Nib) (b : Byte) : (s.setV x b).fb = s.fb := rfl
@[simp] theorem State.setV_key (x : Nib) (b : Byte) : (s.setV x b).key = s.key := rfl
@[simp] theorem State.setV_status (x : Nib) (b : Byte) : (s.setV x b).status = s.status := rfl
@[simp] theorem State.setV_wx (x : Nib) (b : Byte) : (s.setV x b).wx = s.wx := rfl
@[simp] theorem State.setV_acc (x : Nib) (b : Byte) : (s.setV x b).acc = s.acc := rfl
@[simp] theorem State.setV_draws (x : Nib) (b : Byte) : (s.setV x b).draws = s.draws := rfl

@[simp] theorem State.setI_v (a : Word) : (s.setI a).v = s.v := rfl
@[simp] theorem State.setI_i (a : Word) : (s.setI a).i = a := rfl
@[simp] theorem State.setI_pc (a : Word) : (s.setI a).pc = s.pc := rfl
@[simp] theorem State.setI_sp (a : Word) : (s.setI a).sp = s.sp := rfl
@[simp] theorem State.setI_stack (a : Word) : (s.setI a).stack = s.stack := rfl
@[simp] theorem State.setI_dt (a : Word) : (s.setI a).dt = s.dt := rfl
@[simp] theorem State.setI_st (a : Word) : (s.setI a).st = s.st := rfl
@[simp] theorem State.setI_mem (a : Word) : (s.setI a).mem = s.mem := rfl
@[simp] theorem State.setI_fb (a : Word) : (s.setI a).fb = s.fb := rfl
@[simp] theorem State.setI_key (a : Word) : (s.setI a).key = s.key := rfl
@[simp] theorem State.setI_status (a : Word) : (s.setI a).status = s.status := rfl
@[simp] theorem State.setI_wx (a : Word) : (s.setI a).wx = s.wx := rfl
@[simp] theorem State.setI_acc (a : Word) : (s.setI a).acc = s.acc := rfl
@[simp] theorem State.setI_draws (a : Word) : (s.setI a).draws = s.draws := rfl

@[simp] theorem State.setPc_v (a : Word) : (s.setPc a).v = s.v := rfl
@[simp] theorem State.setPc_i (a : Word) : (s.setPc a).i = s.i := rfl
@[simp] theorem State.setPc_pc (a : Word) : (s.setPc a).pc = a := rfl
@[simp] theorem State.setPc_sp (a : Word) : (s.setPc a).sp = s.sp := rfl
@[simp] theorem State.setPc_stack (a : Word) : (s.setPc a).stack = s.stack := rfl
@[simp] theorem State.setPc_dt (a : Word) : (s.setPc a).dt = s.dt := rfl
@[simp] theorem State.setPc_st (a : Word) : (s.setPc a).st = s.st := rfl
@[simp] theorem State.setPc_mem (a : Word) : (s.setPc a).mem = s.mem := rfl
@[simp] theorem State.setPc_fb (a : Word) : (s.setPc a).fb = s.fb := rfl
@[simp] theorem State.setPc_key (a : Word) : (s.setPc a).key = s.key := rfl
@[simp] theorem State.setPc_status (a : Word) : (s.setPc a).status = s.status := rfl
@[simp] theorem State.setPc_wx (a : Word) : (s.setPc a).wx = s.wx := rfl
@[simp] theorem State.setPc_acc (a : Word) : (s.setPc a).acc = s.acc := rfl
@[simp] theorem State.setPc_draws (a : Word) : (s.setPc a).draws = s.draws := rfl

@[simp] theorem State.setSp_v (n : Byte) : (s.setSp n).v = s.v := rfl
@[simp] theorem State.setSp_i (n : Byte) : (s.setSp n).i = s.i := rfl
@[simp] theorem State.setSp_pc (n : Byte) : (s.setSp n).pc = s.pc := rfl
@[simp] theorem State.setSp_sp (n : Byte) : (s.setSp n).sp = n := rfl
@[simp] theorem State.setSp_stack (n : Byte) : (s.setSp n).stack = s.stack := rfl
@[simp] theorem State.setSp_dt (n : Byte) : (s.setSp n).dt = s.dt := rfl
@[simp] theorem State.setSp_st (n : Byte) : (s.setSp n).st = s.st := rfl
@[simp] theorem State.setSp_mem (n : Byte) : (s.setSp n).mem = s.mem := rfl
@[simp] theorem State.setSp_fb (n : Byte) : (s.setSp n).fb = s.fb := rfl
@[simp] theorem State.setSp_key (n : Byte) : (s.setSp n).key = s.key := rfl
@[simp] theorem State.setSp_status (n : Byte) : (s.setSp n).status = s.status := rfl
@[simp] theorem State.setSp_wx (n : Byte) : (s.setSp n).wx = s.wx := rfl
@[simp] theorem State.setSp_acc (n : Byte) : (s.setSp n).acc = s.acc := rfl
@[simp] theorem State.setSp_draws (n : Byte) : (s.setSp n).draws = s.draws := rfl

@[simp] theorem State.setStack_v (t : Vector Word 16) : (s.setStack t).v = s.v := rfl
@[simp] theorem State.setStack_i (t : Vector Word 16) : (s.setStack t).i = s.i := rfl
@[simp] theorem State.setStack_pc (t : Vector Word 16) : (s.setStack t).pc = s.pc := rfl
@[simp] theorem State.setStack_sp (t : Vector Word 16) : (s.setStack t).sp = s.sp := rfl
@[simp] theorem State.setStack_stack (t : Vector Word 16) : (s.setStack t).stack = t := rfl
@[simp] theorem State.setStack_dt (t : Vector Word 16) : (s.setStack t).dt = s.dt := rfl
@[simp] theorem State.setStack_st (t : Vector Word 16) : (s.setStack t).st = s.st := rfl
@[simp] theorem State.setStack_mem (t : Vector Word 16) : (s.setStack t).mem = s.mem := rfl
@[simp] theorem State.setStack_fb (t : Vector Word 16) : (s.setStack t).fb = s.fb := rfl
@[simp] theorem State.setStack_key (t : Vector Word 16) : (s.setStack t).key = s.key := rfl
@[simp] theorem State.setStack_status (t : Vector Word 16) : (s.setStack t).status = s.status := rfl
@[simp] theorem State.setStack_wx (t : Vector Word 16) : (s.setStack t).wx = s.wx := rfl
@[simp] theorem State.setStack_acc (t : Vector Word 16) : (s.setStack t).acc = s.acc := rfl
@[simp] theorem State.setStack_draws (t : Vector Word 16) : (s.setStack t).draws = s.draws := rfl

@[simp] theorem State.setDt_v (b : Byte) : (s.setDt b).v = s.v := rfl
@[simp] theorem State.setDt_i (b : Byte) : (s.setDt b).i = s.i := rfl
@[simp] theorem State.setDt_pc (b : Byte) : (s.setDt b).pc = s.pc := rfl
@[simp] theorem State.setDt_sp (b : Byte) : (s.setDt b).sp = s.sp := rfl
@[simp] theorem State.setDt_stack (b : Byte) : (s.setDt b).stack = s.stack := rfl
@[simp] theorem State.setDt_dt (b : Byte) : (s.setDt b).dt = b := rfl
@[simp] theorem State.setDt_st (b : Byte) : (s.setDt b).st = s.st := rfl
@[simp] theorem State.setDt_mem (b : Byte) : (s.setDt b).mem = s.mem := rfl
@[simp] theorem State.setDt_fb (b : Byte) : (s.setDt b).fb = s.fb := rfl
@[simp] theorem State.setDt_key (b : Byte) : (s.setDt b).key = s.key := rfl
@[simp] theorem State.setDt_status (b : Byte) : (s.setDt b).status = s.status := rfl
@[simp] theorem State.setDt_wx (b : Byte) : (s.setDt b).wx = s.wx := rfl
@[simp] theorem State.setDt_acc (b : Byte) : (s.setDt b).acc = s.acc := rfl
@[simp] theorem State.setDt_draws (b : Byte) : (s.setDt b).draws = s.draws := rfl

@[simp] theorem State.setSt_v (b : Byte) : (s.setSt b).v = s.v := rfl
@[simp] theorem State.setSt_i (b : Byte) : (s.setSt b).i = s.i := rfl
@[simp] theorem State.setSt_pc (b : Byte) : (s.setSt b).pc = s.pc := rfl
@[simp] theorem State.setSt_sp (b : Byte) : (s.setSt b).sp = s.sp := rfl
@[simp] theorem State.setSt_stack (b : Byte) : (s.setSt b).stack = s.stack := rfl
@[simp] theorem State.setSt_dt (b : Byte) : (s.setSt b).dt = s.dt := rfl
@[simp] theorem State.setSt_st (b : Byte) : (s.setSt b).st = b := rfl
@[simp] theorem State.setSt_mem (b : Byte) : (s.setSt b).mem = s.mem := rfl
@[simp] theorem State.setSt_fb (b : Byte) : (s.setSt b).fb = s.fb := rfl
@[simp] theorem State.setSt_key (b : Byte) : (s.setSt b).key = s.key := rfl
@[simp] theorem State.setSt_status (b : Byte) : (s.setSt b).status = s.status := rfl
@[simp] theorem State.setSt_wx (b : Byte) : (s.setSt b).wx = s.wx := rfl
@[simp] theorem State.setSt_acc (b : Byte) : (s.setSt b).acc = s.acc := rfl
@[simp] theorem State.setSt_draws (b : Byte) : (s.setSt b).draws = s.draws := rfl

@[simp] theorem State.setMem_v (m : Memory) : (s.setMem m).v = s.v := rfl
@[simp] theorem State.setMem_i (m : Memory) : (s.setMem m).i = s.i := rfl
@[simp] theorem State.setMem_pc (m : Memory) : (s.setMem m).pc = s.pc := rfl
@[simp] theorem State.setMem_sp (m : Memory) : (s.setMem m).sp = s.sp := rfl
@[simp] theorem State.setMem_stack (m : Memory) : (s.setMem m).stack = s.stack := rfl
@[simp] theorem State.setMem_dt (m : Memory) : (s.setMem m).dt = s.dt := rfl
@[simp] theorem State.setMem_st (m : Memory) : (s.setMem m).st = s.st := rfl
@[simp] theorem State.setMem_mem (m : Memory) : (s.setMem m).mem = m := rfl
@[simp] theorem State.setMem_fb (m : Memory) : (s.setMem m).fb = s.fb := rfl
@[simp] theorem State.setMem_key (m : Memory) : (s.setMem m).key = s.key := rfl
@[simp] theorem State.setMem_status (m : Memory) : (s.setMem m).status = s.status := rfl
@[simp] theorem State.setMem_wx (m : Memory) : (s.setMem m).wx = s.wx := rfl
@[simp] theorem State.setMem_acc (m : Memory) : (s.setMem m).acc = s.acc := rfl
@[simp] theorem State.setMem_draws (m : Memory) : (s.setMem m).draws = s.draws := rfl

@[simp] theorem State.setFb_v (f : Framebuffer) : (s.setFb f).v = s.v := rfl
@[simp] theorem State.setFb_i (f : Framebuffer) : (s.setFb f).i = s.i := rfl
@[simp] theorem State.setFb_pc (f : Framebuffer) : (s.setFb f).pc = s.pc := rfl
@[simp] theorem State.setFb_sp (f : Framebuffer) : (s.setFb f).sp = s.sp := rfl
@[simp] theorem State.setFb_stack (f : Framebuffer) : (s.setFb f).stack = s.stack := rfl
@[simp] theorem State.setFb_dt (f : Framebuffer) : (s.setFb f).dt = s.dt := rfl
@[simp] theorem State.setFb_st (f : Framebuffer) : (s.setFb f).st = s.st := rfl
@[simp] theorem State.setFb_mem (f : Framebuffer) : (s.setFb f).mem = s.mem := rfl
@[simp] theorem State.setFb_fb (f : Framebuffer) : (s.setFb f).fb = f := rfl
@[simp] theorem State.setFb_key (f : Framebuffer) : (s.setFb f).key = s.key := rfl
@[simp] theorem State.setFb_status (f : Framebuffer) : (s.setFb f).status = s.status := rfl
@[simp] theorem State.setFb_wx (f : Framebuffer) : (s.setFb f).wx = s.wx := rfl
@[simp] theorem State.setFb_acc (f : Framebuffer) : (s.setFb f).acc = s.acc := rfl
@[simp] theorem State.setFb_draws (f : Framebuffer) : (s.setFb f).draws = s.draws := rfl

@[simp] theorem State.setKeys_v (k : Vector Bool 16) : (s.setKeys k).v = s.v := rfl
@[simp] theorem State.setKeys_i (k : Vector Bool 16) : (s.setKeys k).i = s.i := rfl
@[simp] theorem State.setKeys_pc (k : Vector Bool 16) : (s.setKeys k).pc = s.pc := rfl
@[simp] theorem State.setKeys_sp (k : Vector Bool 16) : (s.setKeys k).sp = s.sp := rfl
@[simp] theorem State.setKeys_stack (k : Vector Bool 16) : (s.setKeys k).stack = s.stack := rfl
@[simp] theorem State.setKeys_dt (k : Vector Bool 16) : (s.setKeys k).dt = s.dt := rfl
@[simp] theorem State.setKeys_st (k : Vector Bool 16) : (s.setKeys k).st = s.st := rfl
@[simp] theorem State.setKeys_mem (k : Vector Bool 16) : (s.setKeys k).mem = s.mem := rfl
@[simp] theorem State.setKeys_fb (k : Vector Bool 16) : (s.setKeys k).fb = s.fb := rfl
@[simp] theorem State.setKeys_key (k : Vector Bool 16) : (s.setKeys k).key = k := rfl
@[simp] theorem State.setKeys_status (k : Vector Bool 16) : (s.setKeys k).status = s.status := rfl
@[simp] theorem State.setKeys_wx (k : Vector Bool 16) : (s.setKeys k).wx = s.wx := rfl
@[simp] theorem State.setKeys_acc (k : Vector Bool 16) : (s.setKeys k).acc = s.acc := rfl
@[simp] theorem State.setKeys_draws (k : Vector Bool 16) : (s.setKeys k).draws = s.draws := rfl

@[simp] theorem State.setStatus_v (u : Status) : (s.setStatus u).v = s.v := rfl
@[simp] theorem State.setStatus_i (u : Status) : (s.setStatus u).i = s.i := rfl
@[simp] theorem State.setStatus_pc (u : Status) : (s.setStatus u).pc = s.pc := rfl
@[simp] theorem State.setStatus_sp (u : Status) : (s.setStatus u).sp = s.sp := rfl
@[simp] theorem State.setStatus_stack (u : Status) : (s.setStatus u).stack = s.stack := rfl
@[simp] theorem State.setStatus_dt (u : Status) : (s.setStatus u).dt = s.dt := rfl
@[simp] theorem State.setStatus_st (u : Status) : (s.setStatus u).st = s.st := rfl
@[simp] theorem State.setStatus_mem (u : Status) : (s.setStatus u).mem = s.mem := rfl
@[simp] theorem State.setStatus_fb (u : Status) : (s.setStatus u).fb = s.fb := rfl
@[simp] theorem State.setStatus_key (u : Status) : (s.setStatus u).key = s.key := rfl
@[simp] theorem State.setStatus_status (u : Status) : (s.setStatus u).status = u := rfl
@[simp] theorem State.setStatus_wx (u : Status) : (s.setStatus u).wx = s.wx := rfl
@[simp] theorem State.setStatus_acc (u : Status) : (s.setStatus u).acc = s.acc := rfl
@[simp] theorem State.setStatus_draws (u : Status) : (s.setStatus u).draws = s.draws := rfl

@[simp] theorem State.setWx_v (x : Nib) : (s.setWx x).v = s.v := rfl
@[simp] theorem State.setWx_i (x : Nib) : (s.setWx x).i = s.i := rfl
@[simp] theorem State.setWx_pc (x : Nib) : (s.setWx x).pc = s.pc := rfl
@[simp] theorem State.setWx_sp (x : Nib) : (s.setWx x).sp = s.sp := rfl
@[simp] theorem State.setWx_stack (x : Nib) : (s.setWx x).stack = s.stack := rfl
@[simp] theorem State.setWx_dt (x : Nib) : (s.setWx x).dt = s.dt := rfl
@[simp] theorem State.setWx_st (x : Nib) : (s.setWx x).st = s.st := rfl
@[simp] theorem State.setWx_mem (x : Nib) : (s.setWx x).mem = s.mem := rfl
@[simp] theorem State.setWx_fb (x : Nib) : (s.setWx x).fb = s.fb := rfl
@[simp] theorem State.setWx_key (x : Nib) : (s.setWx x).key = s.key := rfl
@[simp] theorem State.setWx_status (x : Nib) : (s.setWx x).status = s.status := rfl
@[simp] theorem State.setWx_wx (x : Nib) : (s.setWx x).wx = x := rfl
@[simp] theorem State.setWx_acc (x : Nib) : (s.setWx x).acc = s.acc := rfl
@[simp] theorem State.setWx_draws (x : Nib) : (s.setWx x).draws = s.draws := rfl

@[simp] theorem State.setAcc_v (q : Rat) : (s.setAcc q).v = s.v := rfl
@[simp] theorem State.setAcc_i (q : Rat) : (s.setAcc q).i = s.i := rfl
@[simp] theorem State.setAcc_pc (q : Rat) : (s.setAcc q).pc = s.pc := rfl
@[simp] theorem State.setAcc_sp (q : Rat) : (s.setAcc q).sp = s.sp := rfl
@[simp] theorem State.setAcc_stack (q : Rat) : (s.setAcc q).stack = s.stack := rfl
@[simp] theorem State.setAcc_dt (q : Rat) : (s.setAcc q).dt = s.dt := rfl
@[simp] theorem State.setAcc_st (q : Rat) : (s.setAcc q).st = s.st := rfl
@[simp] theorem State.setAcc_mem (q : Rat) : (s.setAcc q).mem = s.mem := rfl
@[simp] theorem State.setAcc_fb (q : Rat) : (s.setAcc q).fb = s.fb := rfl
@[simp] theorem State.setAcc_key (q : Rat) : (s.setAcc q).key = s.key := rfl
@[simp] theorem State.setAcc_status (q : Rat) : (s.setAcc q).status = s.status := rfl
@[simp] theorem State.setAcc_wx (q : Rat) : (s.setAcc q).wx = s.wx := rfl
@[simp] theorem State.setAcc_acc (q : Rat) : (s.setAcc q).acc = q := rfl
@[simp] theorem State.setAcc_draws (q : Rat) : (s.setAcc q).draws = s.draws := rfl

@[simp] theorem State.setDraws_v (n : Nat) : (s.setDraws n).v = s.v := rfl
@[simp] theorem State.setDraws_i (n : Nat) : (s.setDraws n).i = s.i := rfl
@[simp] theorem State.setDraws_pc (n : Nat) : (s.setDraws n).pc = s.pc := rfl
@[simp] theorem State.setDraws_sp (n : Nat) : (s.setDraws n).sp = s.sp := rfl
@[simp] theorem State.setDraws_stack (n : Nat) : (s.setDraws n).stack = s.stack := rfl
@[simp] theorem State.setDraws_dt (n : Nat) : (s.setDraws n).dt = s.dt := rfl
@[simp] theorem State.setDraws_st (n : Nat) : (s.setDraws n).st = s.st := rfl
@[simp] theorem State.setDraws_mem (n : Nat) : (s.setDraws n).mem = s.mem := rfl
@[simp] theorem State.setDraws_fb (n : Nat) : (s.setDraws n).fb = s.fb := rfl
@[simp] theorem State.setDraws_key (n : Nat) : (s.setDraws n).key = s.key := rfl
@[simp] theorem State.setDraws_status (n : Nat) : (s.setDraws n).status = s.status := rfl
@[simp] theorem State.setDraws_wx (n : Nat) : (s.setDraws n).wx = s.wx := rfl
@[simp] theorem State.setDraws_acc (n : Nat) : (s.setDraws n).acc = s.acc := rfl
@[simp] theorem State.setDraws_draws (n : Nat) : (s.setDraws n).draws = n := rfl

theorem State.raise_eq (f : HaltReason) : s.raise f = s.setStatus (.halted f) := rfl

@[simp] theorem State.raise_v (f : HaltReason) : (s.raise f).v = s.v := rfl
@[simp] theorem State.raise_i (f : HaltReason) : (s.raise f).i = s.i := rfl
@[simp] theorem State.raise_pc (f : HaltReason) : (s.raise f).pc = s.pc := rfl
@[simp] theorem State.raise_sp (f : HaltReason) : (s.raise f).sp = s.sp := rfl
@[simp] theorem State.raise_stack (f : HaltReason) : (s.raise f).stack = s.stack := rfl
@[simp] theorem State.raise_dt (f : HaltReason) : (s.raise f).dt = s.dt := rfl
@[simp] theorem State.raise_st (f : HaltReason) : (s.raise f).st = s.st := rfl
@[simp] theorem State.raise_mem (f : HaltReason) : (s.raise f).mem = s.mem := rfl
@[simp] theorem State.raise_fb (f : HaltReason) : (s.raise f).fb = s.fb := rfl
@[simp] theorem State.raise_key (f : HaltReason) : (s.raise f).key = s.key := rfl
@[simp] theorem State.raise_status (f : HaltReason) : (s.raise f).status = .halted f := rfl
@[simp] theorem State.raise_wx (f : HaltReason) : (s.raise f).wx = s.wx := rfl
@[simp] theorem State.raise_acc (f : HaltReason) : (s.raise f).acc = s.acc := rfl
@[simp] theorem State.raise_draws (f : HaltReason) : (s.raise f).draws = s.draws := rfl

@[simp] theorem State.advancePc_v : s.advancePc.v = s.v := rfl
@[simp] theorem State.advancePc_i : s.advancePc.i = s.i := rfl
@[simp] theorem State.advancePc_pc : s.advancePc.pc = s.pc + 2 := rfl
@[simp] theorem State.advancePc_sp : s.advancePc.sp = s.sp := rfl
@[simp] theorem State.advancePc_stack : s.advancePc.stack = s.stack := rfl
@[simp] theorem State.advancePc_dt : s.advancePc.dt = s.dt := rfl
@[simp] theorem State.advancePc_st : s.advancePc.st = s.st := rfl
@[simp] theorem State.advancePc_mem : s.advancePc.mem = s.mem := rfl
@[simp] theorem State.advancePc_fb : s.advancePc.fb = s.fb := rfl
@[simp] theorem State.advancePc_key : s.advancePc.key = s.key := rfl
@[simp] theorem State.advancePc_status : s.advancePc.status = s.status := rfl
@[simp] theorem State.advancePc_wx : s.advancePc.wx = s.wx := rfl
@[simp] theorem State.advancePc_acc : s.advancePc.acc = s.acc := rfl
@[simp] theorem State.advancePc_draws : s.advancePc.draws = s.draws := rfl

@[simp] theorem State.skipIf_v (c : Bool) : (s.skipIf c).v = s.v := by cases c <;> rfl
@[simp] theorem State.skipIf_i (c : Bool) : (s.skipIf c).i = s.i := by cases c <;> rfl
@[simp] theorem State.skipIf_pc (c : Bool) : (s.skipIf c).pc = if c = true then s.pc + 2 else s.pc := by cases c <;> rfl
@[simp] theorem State.skipIf_sp (c : Bool) : (s.skipIf c).sp = s.sp := by cases c <;> rfl
@[simp] theorem State.skipIf_stack (c : Bool) : (s.skipIf c).stack = s.stack := by cases c <;> rfl
@[simp] theorem State.skipIf_dt (c : Bool) : (s.skipIf c).dt = s.dt := by cases c <;> rfl
@[simp] theorem State.skipIf_st (c : Bool) : (s.skipIf c).st = s.st := by cases c <;> rfl
@[simp] theorem State.skipIf_mem (c : Bool) : (s.skipIf c).mem = s.mem := by cases c <;> rfl
@[simp] theorem State.skipIf_fb (c : Bool) : (s.skipIf c).fb = s.fb := by cases c <;> rfl
@[simp] theorem State.skipIf_key (c : Bool) : (s.skipIf c).key = s.key := by cases c <;> rfl
@[simp] theorem State.skipIf_status (c : Bool) : (s.skipIf c).status = s.status := by cases c <;> rfl
@[simp] theorem State.skipIf_wx (c : Bool) : (s.skipIf c).wx = s.wx := by cases c <;> rfl
@[simp] theorem State.skipIf_acc (c : Bool) : (s.skipIf c).acc = s.acc := by cases c <;> rfl
@[simp] theorem State.skipIf_draws (c : Bool) : (s.skipIf c).draws = s.draws := by cases c <;> rfl

@[simp] theorem State.setFlag_v (b : Bool) : (s.setFlag b).v = s.v.set 15 (flagByte b) := rfl
@[simp] theorem State.setFlag_i (b : Bool) : (s.setFlag b).i = s.i := rfl
@[simp] theorem State.setFlag_pc (b : Bool) : (s.setFlag b).pc = s.pc := rfl
@[simp] theorem State.setFlag_sp (b : Bool) : (s.setFlag b).sp = s.sp := rfl
@[simp] theorem State.setFlag_stack (b : Bool) : (s.setFlag b).stack = s.stack := rfl
@[simp] theorem State.setFlag_dt (b : Bool) : (s.setFlag b).dt = s.dt := rfl
@[simp] theorem State.setFlag_st (b : Bool) : (s.setFlag b).st = s.st := rfl
@[simp] theorem State.setFlag_mem (b : Bool) : (s.setFlag b).mem = s.mem := rfl
@[simp] theorem State.setFlag_fb (b : Bool) : (s.setFlag b).fb = s.fb := rfl
@[simp] theorem State.setFlag_key (b : Bool) : (s.setFlag b).key = s.key := rfl
@[simp] theorem State.setFlag_status (b : Bool) : (s.setFlag b).status = s.status := rfl
@[simp] theorem State.setFlag_wx (b : Bool) : (s.setFlag b).wx = s.wx := rfl
@[simp] theorem State.setFlag_acc (b : Bool) : (s.setFlag b).acc = s.acc := rfl
@[simp] theorem State.setFlag_draws (b : Bool) : (s.setFlag b).draws = s.draws := rfl

end Sys2Proof.Machine
end

