-- ==== Sys2Proof/Laws/Registers.lean ====
section
/-!
SUPPORT. Registers, flag, call stack and the frame predicates: what each shared operation does, said once.
-/

namespace Sys2Proof.Machine

variable (s t : State)

theorem flagByte_toNat (b : Bool) : (flagByte b).toNat = if b then 1 else 0 := by
  cases b <;> rfl

/-! ### General registers -/

theorem State.getV_setV (x r : Nib) (b : Byte) :
    (s.setV x b).getV r = if r = x then b else s.getV r := by
  by_cases h : r = x
  · subst h; simp [State.getV]
  · have hn : x.toNat ≠ r.toNat := fun e => h (BitVec.eq_of_toNat_eq e.symm)
    simp [State.getV, h, Vector.getElem_set_ne _ _ hn]

@[simp] theorem State.getV_setV_self (x : Nib) (b : Byte) : (s.setV x b).getV x = b := by
  simp [State.getV_setV]

theorem State.getV_setFlag (r : Nib) (b : Bool) :
    (s.setFlag b).getV r = if r = 15 then flagByte b else s.getV r :=
  State.getV_setV s 15 r (flagByte b)

/-- A state whose `v` is that of another reads the same registers. -/
theorem State.getV_congr {s t : State} (h : t.v = s.v) (r : Nib) : t.getV r = s.getV r := by
  simp [State.getV, h]

/-- Two register files that read the same everywhere are equal. -/
theorem State.v_ext {s t : State} (h : ∀ r, t.getV r = s.getV r) : t.v = s.v := by
  apply Vector.ext
  intro k hk
  have := h (BitVec.ofNat 4 k)
  simpa [State.getV, BitVec.toNat_ofNat, Nat.mod_eq_of_lt hk] using this

@[simp] theorem State.getV_setI (a : Word) (r : Nib) : (s.setI a).getV r = s.getV r := rfl
@[simp] theorem State.getV_setPc (a : Word) (r : Nib) : (s.setPc a).getV r = s.getV r := rfl
@[simp] theorem State.getV_setMem (m : Memory) (r : Nib) : (s.setMem m).getV r = s.getV r := rfl
@[simp] theorem State.getV_setFb (f : Framebuffer) (r : Nib) : (s.setFb f).getV r = s.getV r := rfl
@[simp] theorem State.getV_setStatus (u : Status) (r : Nib) : (s.setStatus u).getV r = s.getV r := rfl
@[simp] theorem State.getV_setDraws (n : Nat) (r : Nib) : (s.setDraws n).getV r = s.getV r := rfl
@[simp] theorem State.getV_advancePc (r : Nib) : s.advancePc.getV r = s.getV r := rfl

/-! ### The first `n` registers loaded from memory (`Fx65`) -/

theorem State.loadRegs_succ (base n : Nat) :
    s.loadRegs base (n + 1) =
      (s.loadRegs base n).setV (BitVec.ofNat 4 n) (Memory.read s.mem (base + n)) := by
  simp [State.loadRegs, List.range_succ]

/-- `loadRegs` writes registers only. -/
theorem State.loadRegs_eq (base n : Nat) :
    s.loadRegs base n = { s with v := (s.loadRegs base n).v } := by
  induction n with
  | zero => rfl
  | succ n ih => rw [State.loadRegs_succ, ih]; rfl

/-- What `loadRegs` leaves in a register. -/
theorem State.getV_loadRegs (base n : Nat) (hn : n ≤ 16) (r : Nib) :
    (s.loadRegs base n).getV r = if r.toNat < n then Memory.read s.mem (base + r.toNat) else s.getV r := by
  induction n with
  | zero => simp [State.loadRegs]
  | succ n ih =>
    rw [State.loadRegs_succ, State.getV_setV, ih (by omega)]
    have hk : (BitVec.ofNat 4 n).toNat = n := by simp [BitVec.toNat_ofNat]; omega
    by_cases hr : r = BitVec.ofNat 4 n
    · have hrn : r.toNat = n := by rw [hr, hk]
      rw [if_pos hr, if_pos (by omega), hrn]
    · have : r.toNat ≠ n := fun e => hr (BitVec.eq_of_toNat_eq (by rw [hk, e]))
      simp only [if_neg hr]
      by_cases h : r.toNat < n
      · rw [if_pos h, if_pos (by omega)]
      · rw [if_neg h, if_neg (by omega)]

/-! ### The call stack -/

/-- The slots are exactly 1 to 16. -/
theorem State.stackSlot_isSome (k : Nat) : (s.stackSlot k).isSome = true ↔ 1 ≤ k ∧ k ≤ 16 := by
  unfold State.stackSlot
  split
  · simp; omega
  · simp; omega

theorem State.stackSlot_eq_none {k : Nat} (h : 16 < k) : s.stackSlot k = none := by
  have := State.stackSlot_isSome s k
  cases hs : s.stackSlot k with
  | none => rfl
  | some w => simp [hs] at this; omega

theorem State.stackSlot_congr {s t : State} (h : t.stack = s.stack) (k : Nat) :
    t.stackSlot k = s.stackSlot k := by
  simp [State.stackSlot, h]

theorem State.stackSlot_setStackSlot (k j : Nat) (w : Word) (hk : 1 ≤ k ∧ k ≤ 16) :
    (s.setStackSlot k w).stackSlot j = if j = k then some w else s.stackSlot j := by
  unfold State.stackSlot State.setStackSlot
  have hk0 : k ≠ 0 := by omega
  simp only [if_neg hk0, State.setStack_stack]
  by_cases hj : j = 0
  · have : j ≠ k := by omega
    simp [hj]; omega
  · simp only [if_neg hj, Vector.getElem?_setIfInBounds]
    by_cases hjk : j = k
    · subst hjk; simp; omega
    · have : k - 1 ≠ j - 1 := by omega
      simp [hjk, this]

@[simp] theorem State.stackSlot_setPc (a : Word) (k : Nat) : (s.setPc a).stackSlot k = s.stackSlot k := rfl
@[simp] theorem State.stackSlot_setSp (n : Byte) (k : Nat) : (s.setSp n).stackSlot k = s.stackSlot k := rfl
@[simp] theorem State.stackSlot_setStatus (u : Status) (k : Nat) : (s.setStatus u).stackSlot k = s.stackSlot k := rfl
@[simp] theorem State.stackSlot_setMem (m : Memory) (k : Nat) : (s.setMem m).stackSlot k = s.stackSlot k := rfl
@[simp] theorem State.stackSlot_raise (f : HaltReason) (k : Nat) : (s.raise f).stackSlot k = s.stackSlot k := rfl
@[simp] theorem State.stackSlot_advancePc (k : Nat) : s.advancePc.stackSlot k = s.stackSlot k := rfl

/-- `setStackSlot` writes the stack only. -/
theorem State.setStackSlot_eq (k : Nat) (w : Word) :
    s.setStackSlot k w = s.setStack (s.setStackSlot k w).stack := by
  unfold State.setStackSlot
  split <;> rfl

/-! ### Faults taken in place of an effect -/

/-- What a checked effect can answer: the fault taken, or the effect. -/
theorem State.unlessFault_eq (check : Option HaltReason) (effect : Host.Outcome State Fault Refusal) :
    (∃ f, check = some f ∧ s.unlessFault check effect = .next (s.raise f)) ∨
      (check = none ∧ s.unlessFault check effect = effect) := by
  cases check with
  | none => exact .inr ⟨rfl, rfl⟩
  | some f => exact .inl ⟨f, rfl, rfl⟩

@[simp] theorem State.unlessFault_none (effect : Host.Outcome State Fault Refusal) :
    s.unlessFault none effect = effect := rfl

@[simp] theorem State.unlessFault_some (f : HaltReason) (effect : Host.Outcome State Fault Refusal) :
    s.unlessFault (some f) effect = .next (s.raise f) := rfl

/-! ### Frames -/

theorem SameExcept.refl (fs : List Field) : SameExcept fs s s := by
  intro f _
  cases f <;> simp [Field.same]

theorem SameExcept.trans {fs : List Field} {s t u : State} (h : SameExcept fs s t) (k : SameExcept fs t u) :
    SameExcept fs s u := by
  intro f hf
  have h1 := h f hf
  have h2 := k f hf
  cases f <;> simp_all [Field.same]

/-- A larger list of changed pieces is a weaker frame. -/
theorem SameExcept.mono {fs gs : List Field} {s t : State} (h : SameExcept fs s t) (hsub : ∀ f ∈ fs, f ∈ gs) :
    SameExcept gs s t := fun f hf => h f (fun hm => hf (hsub f hm))

theorem SameRegsExcept.setV (x : Nib) (b : Byte) : SameRegsExcept [x] s (s.setV x b) := by
  intro r hr
  rw [State.getV_setV, if_neg (by simpa using hr)]

end Sys2Proof.Machine
end

