-- ==== Sys2Proof/Laws/Memory.lean ====
section
/-!
SUPPORT. Memory: a read after a write, that every operation keeps the canonical form, and the legality checks.
-/

namespace Sys2Proof.Machine

/-! ### Reads after writes: true of every list, canonical or not -/

theorem Memory.read_erase (m : Memory) (a b : Nat) :
    Memory.read (Memory.erase m a) b = if b = a then Memory.powerOn a else Memory.read m b := by
  induction m with
  | nil => by_cases h : b = a <;> simp [Memory.erase, Memory.read, h]
  | cons c m ih =>
    obtain ⟨k, u⟩ := c
    unfold Memory.erase at ih ⊢
    by_cases hk : k = a
    · subst hk
      rw [List.filter_cons_of_neg (by simp), ih]
      by_cases hb : b = k
      · simp [hb]
      · rw [if_neg hb, if_neg hb, Memory.read, if_neg (fun e => hb e.symm)]
    · rw [List.filter_cons_of_pos (by simp [hk])]
      simp only [Memory.read]
      by_cases hkb : k = b
      · subst hkb; simp [hk]
      · rw [if_neg hkb, if_neg hkb, ih]

theorem Memory.read_insert (m : Memory) (a b : Nat) (w : Byte) (h : ∀ c ∈ m, c.1 ≠ a) :
    Memory.read (Memory.insert m a w) b = if b = a then w else Memory.read m b := by
  induction m with
  | nil => simp only [Memory.insert, Memory.read, eq_comm]
  | cons c m ih =>
    obtain ⟨k, u⟩ := c
    have hk : k ≠ a := h (k, u) (by simp)
    have ih' := ih (fun c hc => h c (by simp [hc]))
    unfold Memory.insert
    by_cases hlt : a < k
    · rw [if_pos hlt, Memory.read]
      by_cases hb : b = a
      · simp [hb]
      · rw [if_neg (fun e => hb e.symm), if_neg hb]
    · rw [if_neg hlt]
      simp only [Memory.read, ih']
      by_cases hkb : k = b
      · subst hkb; simp [hk]
      · simp [hkb]

theorem Memory.erase_ne (m : Memory) (a : Nat) : ∀ c ∈ Memory.erase m a, c.1 ≠ a := by
  intro c hc
  simpa using (List.mem_filter.mp hc).2

/-- A read after a write: the written byte at its address, every other byte as before. -/
theorem Memory.read_write (m : Memory) (a b : Nat) (w : Byte) :
    Memory.read (Memory.write m a w) b = if b = a then w else Memory.read m b := by
  unfold Memory.write
  split
  · rename_i hw; rw [Memory.read_erase, hw]
  · rw [Memory.read_insert _ _ _ _ (Memory.erase_ne m a), Memory.read_erase]
    by_cases hb : b = a <;> simp [hb]

@[simp] theorem Memory.read_write_self (m : Memory) (a : Nat) (w : Byte) :
    Memory.read (Memory.write m a w) a = w := by
  simp [Memory.read_write]

/-- A read after a run of bytes is written: inside the run the byte put there, outside it as before. -/
theorem Memory.read_writeBytes (bs : List Byte) : ∀ (m : Memory) (base a : Nat),
    Memory.read (Memory.writeBytes m base bs) a =
      if h : base ≤ a ∧ a < base + bs.length then bs[a - base] else Memory.read m a := by
  induction bs with
  | nil => intro m base a; rw [dif_neg (by simp)]; rfl
  | cons b bs ih =>
    intro m base a
    rw [Memory.writeBytes, ih]
    by_cases h : base + 1 ≤ a ∧ a < base + 1 + bs.length
    · rw [dif_pos h, dif_pos (by simp; omega)]
      have e : a - base = (a - (base + 1)) + 1 := by omega
      simp [e]
    · rw [dif_neg h, Memory.read_write]
      by_cases ha : a = base
      · rw [if_pos ha, dif_pos (by simp; omega)]
        simp [ha]
      · rw [if_neg ha, dif_neg (by simp; omega)]

/-- Outside the bytes written, nothing changes. -/
theorem Memory.read_writeBytes_outside (m : Memory) (base a : Nat) (bs : List Byte)
    (h : a < base ∨ base + bs.length ≤ a) :
    Memory.read (Memory.writeBytes m base bs) a = Memory.read m a := by
  rw [Memory.read_writeBytes, dif_neg (by omega)]

/-- `Reset` leaves the font in 0x000..0x04F and every other byte as it was. -/
theorem Memory.read_reseedFont (m : Memory) (a : Nat) :
    Memory.read (Memory.reseedFont m) a = if a < 80 then Memory.powerOn a else Memory.read m a := by
  induction m with
  | nil => by_cases h : a < 80 <;> simp [Memory.reseedFont, Memory.read]
  | cons c m ih =>
    obtain ⟨k, u⟩ := c
    unfold Memory.reseedFont at ih ⊢
    by_cases hk : 80 ≤ k
    · rw [List.filter_cons_of_pos (by simpa using hk)]
      simp only [Memory.read, ih]
      by_cases hka : k = a
      · subst hka; simp; omega
      · simp [hka]
    · rw [List.filter_cons_of_neg (by simpa using hk), ih]
      by_cases ha : a < 80
      · simp [ha]
      · rw [if_neg ha, if_neg ha, Memory.read, if_neg (by omega)]

/-- The font region reads as the font at power-on. -/
theorem Memory.powerOn_font (k : Nat) (h : k < 80) : Memory.powerOn k = Config.font[k] := by
  simp [Memory.powerOn, h]

/-- Above the font, power-on memory is 0. -/
theorem Memory.powerOn_zero (a : Nat) (h : 80 ≤ a) : Memory.powerOn a = 0 := by
  simp [Memory.powerOn]; omega

/-! ### The canonical form -/

theorem Memory.wfFrom_mono {lo lo' : Nat} (h : lo' ≤ lo) (m : Memory) (hm : Memory.wfFrom lo m = true) :
    Memory.wfFrom lo' m = true := by
  cases m with
  | nil => rfl
  | cons c m =>
    obtain ⟨k, u⟩ := c
    simp only [Memory.wfFrom, Bool.and_eq_true, decide_eq_true_eq] at hm ⊢
    obtain ⟨⟨⟨h1, h2⟩, h3⟩, h4⟩ := hm
    exact ⟨⟨⟨by omega, h2⟩, h3⟩, h4⟩

theorem Memory.wfFrom_filter (p : Host.Cell → Bool) (m : Memory) :
    ∀ lo, Memory.wfFrom lo m = true → Memory.wfFrom lo (m.filter p) = true := by
  induction m with
  | nil => intro lo _; rfl
  | cons c m ih =>
    obtain ⟨k, u⟩ := c
    intro lo hm
    simp only [Memory.wfFrom, Bool.and_eq_true, decide_eq_true_eq] at hm
    obtain ⟨⟨⟨h1, h2⟩, h3⟩, h4⟩ := hm
    rw [List.filter_cons]
    split
    · simp only [Memory.wfFrom, Bool.and_eq_true, decide_eq_true_eq]
      exact ⟨⟨⟨h1, h2⟩, h3⟩, ih _ h4⟩
    · exact Memory.wfFrom_mono (by omega) _ (ih _ h4)

theorem Memory.wfFrom_insert (a : Nat) (w : Byte) (ha : a < 4096) (hw : w ≠ Memory.powerOn a) (m : Memory) :
    ∀ lo, lo ≤ a → (∀ c ∈ m, c.1 ≠ a) → Memory.wfFrom lo m = true →
      Memory.wfFrom lo (Memory.insert m a w) = true := by
  induction m with
  | nil => intro lo hlo _ _; simp [Memory.insert, Memory.wfFrom, hlo, ha, hw]
  | cons c m ih =>
    obtain ⟨k, u⟩ := c
    intro lo hlo hne hm
    have hk : k ≠ a := hne (k, u) (by simp)
    simp only [Memory.wfFrom, Bool.and_eq_true, decide_eq_true_eq] at hm
    obtain ⟨⟨⟨h1, h2⟩, h3⟩, h4⟩ := hm
    unfold Memory.insert
    split
    · simp only [Memory.wfFrom, Bool.and_eq_true, decide_eq_true_eq]
      exact ⟨⟨⟨hlo, ha⟩, hw⟩, ⟨⟨by omega, h2⟩, h3⟩, h4⟩
    · simp only [Memory.wfFrom, Bool.and_eq_true, decide_eq_true_eq]
      exact ⟨⟨⟨h1, h2⟩, h3⟩, ih _ (by omega) (fun c hc => hne c (by simp [hc])) h4⟩

/-- A write inside memory keeps the canonical form. -/
theorem Memory.wf_write (m : Memory) (a : Nat) (w : Byte) (ha : a < 4096) (hm : Memory.wf m = true) :
    Memory.wf (Memory.write m a w) = true := by
  unfold Memory.wf Memory.write at *
  split
  · exact Memory.wfFrom_filter _ m 0 hm
  · rename_i hw
    exact Memory.wfFrom_insert a w ha hw _ 0 (by omega) (Memory.erase_ne m a) (Memory.wfFrom_filter _ m 0 hm)

/-- A run of writes inside memory keeps the canonical form. -/
theorem Memory.wf_writeBytes (bs : List Byte) : ∀ (m : Memory) (base : Nat), base + bs.length ≤ 4096 →
    Memory.wf m = true → Memory.wf (Memory.writeBytes m base bs) = true := by
  induction bs with
  | nil => intro m base _ hm; exact hm
  | cons b bs ih =>
    intro m base hb hm
    simp only [List.length_cons] at hb
    exact ih _ _ (by omega) (Memory.wf_write m base b (by omega) hm)

/-- `Reset` keeps the canonical form. -/
theorem Memory.wf_reseedFont (m : Memory) (hm : Memory.wf m = true) : Memory.wf (Memory.reseedFont m) = true :=
  Memory.wfFrom_filter _ m 0 hm

/-- Below its first possible entry a canonical memory reads as at power-on. -/
theorem Memory.wfFrom_read_low (m : Memory) : ∀ lo a, a < lo → Memory.wfFrom lo m = true →
    Memory.read m a = Memory.powerOn a := by
  induction m with
  | nil => intro lo a _ _; rfl
  | cons c m ih =>
    obtain ⟨k, u⟩ := c
    intro lo a ha hm
    simp only [Memory.wfFrom, Bool.and_eq_true, decide_eq_true_eq] at hm
    obtain ⟨⟨⟨h1, h2⟩, h3⟩, h4⟩ := hm
    rw [Memory.read, if_neg (by omega)]
    exact ih _ a (by omega) h4

/-- In a canonical memory an entry is not what an unlisted address reads as, and it is the first of its list. -/
theorem Memory.wfFrom_cons (lo k : Nat) (u : Byte) (m : Memory) :
    Memory.wfFrom lo ((k, u) :: m) = true ↔
      lo ≤ k ∧ k < 4096 ∧ u ≠ Memory.powerOn k ∧ Memory.wfFrom (k + 1) m = true := by
  simp only [Memory.wfFrom, Bool.and_eq_true, decide_eq_true_eq]
  tauto

theorem Memory.wfFrom_ext (m : Memory) : ∀ (lo : Nat) (n : Memory), Memory.wfFrom lo m = true →
    Memory.wfFrom lo n = true → (∀ a, Memory.read m a = Memory.read n a) → m = n := by
  induction m with
  | nil =>
    intro lo n _ hn h
    cases n with
    | nil => rfl
    | cons d n =>
      obtain ⟨j, x⟩ := d
      have hd := (Memory.wfFrom_cons lo j x n).mp hn
      exact absurd (by simpa [Memory.read] using (h j).symm) hd.2.2.1
  | cons c m ih =>
    obtain ⟨k, u⟩ := c
    intro lo n hm hn h
    have hc := (Memory.wfFrom_cons lo k u m).mp hm
    cases n with
    | nil => exact absurd (by simpa [Memory.read] using h k) hc.2.2.1
    | cons d n =>
      obtain ⟨j, x⟩ := d
      have hd := (Memory.wfFrom_cons lo j x n).mp hn
      have hkj : k = j := by
        rcases Nat.lt_trichotomy k j with hlt | he | hgt
        · have := h k
          rw [Memory.read, if_pos rfl, Memory.read, if_neg (by omega),
            Memory.wfFrom_read_low n (j + 1) k (by omega) hd.2.2.2] at this
          exact absurd this hc.2.2.1
        · exact he
        · have := h j
          rw [Memory.read, if_neg (by omega), Memory.read, if_pos rfl,
            Memory.wfFrom_read_low m (k + 1) j (by omega) hc.2.2.2] at this
          exact absurd this.symm hd.2.2.1
      subst hkj
      have hux : u = x := by simpa [Memory.read] using h k
      subst hux
      congr 1
      refine ih (k + 1) n hc.2.2.2 hd.2.2.2 (fun a => ?_)
      by_cases ha : k = a
      · subst ha
        rw [Memory.wfFrom_read_low m (k + 1) k (by omega) hc.2.2.2,
          Memory.wfFrom_read_low n (k + 1) k (by omega) hd.2.2.2]
      · simpa [Memory.read, ha] using h a

/-- Two canonical memories that read the same are the same list: equal memories are equal data. -/
theorem Memory.wf_ext {m n : Memory} (hm : Memory.wf m = true) (hn : Memory.wf n = true)
    (h : ∀ a, Memory.read m a = Memory.read n a) : m = n := Memory.wfFrom_ext m 0 n hm hn h

theorem State.reset_mem_wf : Memory.wf State.reset.mem = true := rfl

/-! ### The legality checks -/

/-- A read check passes exactly when the range is empty or ends inside memory (R61). -/
theorem checkRead_eq_none (addr n : Nat) : checkRead addr n = none ↔ n = 0 ∨ addr + n ≤ 0x1000 := by
  unfold checkRead
  by_cases h0 : n = 0
  · simp [h0]
  · by_cases h : addr + n - 1 > 0xFFF
    · simp only [if_neg h0, if_pos h]; simp; omega
    · simp only [if_neg h0, if_neg h]; simp; omega

/-- A read check that raises names the lowest illegal address (R61). -/
theorem checkRead_eq_some (addr n : Nat) (f : HaltReason) :
    checkRead addr n = some f ↔ n ≠ 0 ∧ 0x1000 < addr + n ∧ f = .addressFault (max addr 0x1000) := by
  unfold checkRead
  by_cases h0 : n = 0
  · simp [h0]
  · by_cases h : addr + n - 1 > 0xFFF
    · simp only [if_neg h0, if_pos h, Option.some.injEq]
      exact ⟨fun e => ⟨h0, by omega, e.symm⟩, fun e => e.2.2.symm⟩
    · simp only [if_neg h0, if_neg h]; simp; omega

/-- A write check passes exactly when the range is empty or lies in 0x200..0xFFF (R62). -/
theorem checkWrite_eq_none (addr n : Nat) :
    checkWrite addr n = none ↔ n = 0 ∨ (0x200 ≤ addr ∧ addr + n ≤ 0x1000) := by
  unfold checkWrite
  by_cases h0 : n = 0
  · simp [h0]
  · by_cases h1 : addr < 0x200
    · simp only [if_neg h0, if_pos h1]; simp; omega
    · by_cases h : addr + n - 1 > 0xFFF
      · simp only [if_neg h0, if_neg h1, if_pos h]; simp; omega
      · simp only [if_neg h0, if_neg h1, if_neg h]; simp; omega

/-- A write check that raises names the lowest illegal address (R62). -/
theorem checkWrite_eq_some (addr n : Nat) (f : HaltReason) :
    checkWrite addr n = some f ↔ n ≠ 0 ∧
      ((addr < 0x200 ∧ f = .addressFault addr) ∨
        (0x200 ≤ addr ∧ 0x1000 < addr + n ∧ f = .addressFault (max addr 0x1000))) := by
  unfold checkWrite
  by_cases h0 : n = 0
  · simp [h0]
  · by_cases h1 : addr < 0x200
    · simp only [if_neg h0, if_pos h1, Option.some.injEq]
      exact ⟨fun e => ⟨h0, .inl ⟨h1, e.symm⟩⟩, fun e => by
        rcases e.2 with ⟨_, e⟩ | ⟨_, _, _⟩
        · exact e.symm
        · omega⟩
    · by_cases h : addr + n - 1 > 0xFFF
      · simp only [if_neg h0, if_neg h1, if_pos h, Option.some.injEq]
        exact ⟨fun e => ⟨h0, .inr ⟨by omega, by omega, e.symm⟩⟩, fun e => by
          rcases e.2 with ⟨_, _⟩ | ⟨_, _, e⟩
          · omega
          · exact e.symm⟩
      · simp only [if_neg h0, if_neg h1, if_neg h]; simp; omega

/-- A fetch check passes exactly at an even address in 0x200..0xFFE (R63). -/
theorem checkFetch_eq_none (a : Word) :
    checkFetch a = none ↔ a.toNat % 2 = 0 ∧ 0x200 ≤ a.toNat ∧ a.toNat ≤ 0xFFE := by
  unfold checkFetch
  have h : a.getLsbD 0 = decide (a.toNat % 2 = 1) := by
    simp [BitVec.getLsbD, Nat.testBit_zero]
  rw [h]
  split
  · rename_i hc; simp at hc ⊢; omega
  · rename_i hc; simp at hc ⊢; omega

/-- A fetch check that raises carries the address itself (R63). -/
theorem checkFetch_eq_some (a : Word) (f : HaltReason) (h : checkFetch a = some f) : f = .addressFault a.toNat := by
  unfold checkFetch at h
  split at h
  · exact (Option.some.inj h).symm
  · exact absurd h (by simp)

end Sys2Proof.Machine
end

