-- ==== Sys2Proof/Laws/Graphics.lean ====
section
/-!
SUPPORT. The framebuffer: what one flip does to one cell, and the small lemmas of a draw.
-/

namespace Sys2Proof.Machine

/-- A flip inverts its own cell and leaves every other cell alone. -/
theorem Framebuffer.cell_flip (f : Framebuffer) (r r' : Fin 32) (c c' : Fin 64) :
    Framebuffer.cell (Framebuffer.flip f r c) r' c' =
      if r' = r ∧ c' = c then !Framebuffer.cell f r' c' else Framebuffer.cell f r' c' := by
  unfold Framebuffer.cell Framebuffer.flip
  by_cases hr : r' = r
  · subst hr
    by_cases hc : c' = c
    · subst hc; simp
    · have : c.val ≠ c'.val := fun e => hc (Fin.ext e.symm)
      simp [hc, Vector.getElem_set_ne _ _ this]
  · have : r.val ≠ r'.val := fun e => hr (Fin.ext e.symm)
    simp [hr, Vector.getElem_set_ne _ _ this]

@[simp] theorem Framebuffer.cell_clear (r : Fin 32) (c : Fin 64) :
    Framebuffer.cell Framebuffer.clear r c = false := by
  simp [Framebuffer.cell, Framebuffer.clear]

/-- Two framebuffers with the same cells are equal. -/
theorem Framebuffer.ext {f g : Framebuffer} (h : ∀ r c, Framebuffer.cell f r c = Framebuffer.cell g r c) : f = g := by
  apply Vector.ext
  intro r hr
  apply Vector.ext
  intro c hc
  exact h ⟨r, hr⟩ ⟨c, hc⟩

/-- A pixel whose sprite bit is 0 changes nothing. -/
theorem drawPixel_clear {b : Byte} {col : Nat} (h : spriteBit b col = false) (x0 y0 : Byte) (row : Nat)
    (acc : Framebuffer × Bool) : drawPixel x0 y0 b row acc col = acc := by
  simp [drawPixel, h]

/-- A pixel whose sprite bit is 1 flips its cell and notes a collision with an on cell. -/
theorem drawPixel_set {b : Byte} {col : Nat} (h : spriteBit b col = true) (x0 y0 : Byte) (row : Nat)
    (acc : Framebuffer × Bool) :
    drawPixel x0 y0 b row acc col =
      (Framebuffer.flip acc.1 (pixelRow y0 row) (pixelCol x0 col),
        acc.2 || Framebuffer.cell acc.1 (pixelRow y0 row) (pixelCol x0 col)) := by
  simp [drawPixel, h]

/-- A draw of no rows changes nothing and collides with nothing (44_graphics.md R206). -/
@[simp] theorem drawSprite_zero (m : Memory) (base : Word) (x0 y0 : Byte) (f : Framebuffer) :
    drawSprite m base x0 y0 0 f = (f, false) := rfl

/-- A draw of one row more draws that row last. -/
theorem drawSprite_succ (m : Memory) (base : Word) (x0 y0 : Byte) (n : Nat) (f : Framebuffer) :
    drawSprite m base x0 y0 (n + 1) f = drawRow m base x0 y0 (drawSprite m base x0 y0 n f) n := by
  simp [drawSprite, List.range_succ]

/-! ### The draw in closed form -/

theorem pixelRow_eq (y0 : Byte) (row : Nat) (r : Fin 32) : pixelRow y0 row = r ↔ (y0.toNat + row) % 32 = r.val := by
  simp [pixelRow, Fin.ext_iff]

theorem pixelCol_eq (x0 : Byte) (col : Nat) (c : Fin 64) : pixelCol x0 col = c ↔ (x0.toNat + col) % 64 = c.val := by
  simp [pixelCol, Fin.ext_iff]

/-- The first `k` columns of one sprite row, on any framebuffer: each covered cell is inverted, once; a collision is
noted iff a covered cell was on. -/
theorem foldl_drawPixel (x0 y0 b : Byte) (row : Nat) (acc : Framebuffer × Bool) (k : Nat) (hk : k ≤ 8) :
    (∀ r c, Framebuffer.cell ((List.range k).foldl (drawPixel x0 y0 b row) acc).1 r c =
      ((Framebuffer.cell acc.1 r c) ^^
        decide (∃ col, col < k ∧ spriteBit b col = true ∧ pixelRow y0 row = r ∧ pixelCol x0 col = c))) ∧
    (((List.range k).foldl (drawPixel x0 y0 b row) acc).2 = true ↔
      acc.2 = true ∨ ∃ col, col < k ∧ spriteBit b col = true ∧
        Framebuffer.cell acc.1 (pixelRow y0 row) (pixelCol x0 col) = true) := by
  induction k with
  | zero => simp
  | succ k ih =>
    obtain ⟨hc, hf⟩ := ih (by omega)
    have hold : ∀ r c, pixelCol x0 k = c →
        ¬ ∃ col, col < k ∧ spriteBit b col = true ∧ pixelRow y0 row = r ∧ pixelCol x0 col = c := by
      rintro r c hkc ⟨col, hlt, -, -, hcol⟩
      rw [pixelCol_eq] at hkc hcol
      omega
    simp only [List.range_succ, List.foldl_append, List.foldl_cons, List.foldl_nil]
    by_cases hb : spriteBit b k = true
    · rw [drawPixel_set hb]
      constructor
      · intro r c
        rw [Framebuffer.cell_flip, hc]
        by_cases hrc : r = pixelRow y0 row ∧ c = pixelCol x0 k
        · rw [if_pos hrc, decide_eq_false (hold r c hrc.2.symm),
            decide_eq_true ⟨k, by omega, hb, hrc.1.symm, hrc.2.symm⟩]
          simp
        · rw [if_neg hrc]
          congr 1
          refine decide_eq_decide.mpr ⟨fun ⟨col, h, h'⟩ => ⟨col, by omega, h'⟩, fun ⟨col, h, h', h1, h2⟩ => ?_⟩
          rcases Nat.lt_succ_iff_lt_or_eq.mp h with h | rfl
          · exact ⟨col, h, h', h1, h2⟩
          · exact absurd ⟨h1.symm, h2.symm⟩ hrc
      · rw [Bool.or_eq_true, hf, hc, decide_eq_false (hold _ _ rfl), Bool.xor_false]
        constructor
        · rintro ((h | ⟨col, h, h'⟩) | h)
          · exact .inl h
          · exact .inr ⟨col, by omega, h'⟩
          · exact .inr ⟨k, by omega, hb, h⟩
        · rintro (h | ⟨col, h, h', h''⟩)
          · exact .inl (.inl h)
          · rcases Nat.lt_succ_iff_lt_or_eq.mp h with h | rfl
            · exact .inl (.inr ⟨col, h, h', h''⟩)
            · exact .inr h''
    · rw [drawPixel_clear (by simpa using hb)]
      have hstep : ∀ P : Nat → Prop,
          (∃ col, col < k ∧ spriteBit b col = true ∧ P col) ↔ ∃ col, col < k + 1 ∧ spriteBit b col = true ∧ P col := by
        intro P
        refine ⟨fun ⟨col, h, h'⟩ => ⟨col, by omega, h'⟩, fun ⟨col, h, h', h''⟩ => ?_⟩
        rcases Nat.lt_succ_iff_lt_or_eq.mp h with h | rfl
        · exact ⟨col, h, h', h''⟩
        · exact absurd h' hb
      refine ⟨fun r c => ?_, ?_⟩
      · rw [hc]; congr 1; exact decide_eq_decide.mpr (hstep _)
      · rw [hf]; exact or_congr_right (hstep _)

/-- A draw in closed form, for up to 32 rows (44_graphics.md R202 to R204): each cell under a sprite pixel is inverted,
once, and the flag says whether such a cell was on before the draw. -/
theorem drawSprite_spec (m : Memory) (base : Word) (x0 y0 : Byte) (f : Framebuffer) (n : Nat) (hn : n ≤ 32) :
    (∀ r c, (SpriteCovers m base x0 y0 n r c →
        Framebuffer.cell (drawSprite m base x0 y0 n f).1 r c = !Framebuffer.cell f r c) ∧
      (¬ SpriteCovers m base x0 y0 n r c →
        Framebuffer.cell (drawSprite m base x0 y0 n f).1 r c = Framebuffer.cell f r c)) ∧
    ((drawSprite m base x0 y0 n f).2 = true ↔
      ∃ r c, SpriteCovers m base x0 y0 n r c ∧ Framebuffer.cell f r c = true) := by
  induction n with
  | zero => simp [SpriteCovers]
  | succ n ih =>
    obtain ⟨hc, hf⟩ := ih (by omega)
    obtain ⟨hc', hf'⟩ := foldl_drawPixel x0 y0 (Memory.read m (dataAddr base n)) n (drawSprite m base x0 y0 n f) 8 (by omega)
    rw [drawSprite_succ]
    have hfresh : ∀ c, ¬ SpriteCovers m base x0 y0 n (pixelRow y0 n) c := by
      rintro c ⟨row, col, hrow, -, -, hr, -⟩
      have := (pixelRow_eq y0 n _).mp rfl
      omega
    have hsplit : ∀ r c, SpriteCovers m base x0 y0 (n + 1) r c ↔ SpriteCovers m base x0 y0 n r c ∨
        ∃ col, col < 8 ∧ spriteBit (Memory.read m (dataAddr base n)) col = true ∧ pixelRow y0 n = r ∧
          pixelCol x0 col = c := by
      intro r c
      simp only [pixelRow_eq, pixelCol_eq, spriteBit, dataAddr]
      constructor
      · rintro ⟨row, col, hrow, h⟩
        rcases Nat.lt_succ_iff_lt_or_eq.mp hrow with h' | rfl
        · exact .inl ⟨row, col, h', h⟩
        · exact .inr ⟨col, h⟩
      · rintro (⟨row, col, hrow, h⟩ | ⟨col, h⟩)
        · exact ⟨row, col, by omega, h⟩
        · exact ⟨n, col, by omega, h⟩
    refine ⟨fun r c => ?_, ?_⟩
    · unfold drawRow
      rw [hc', hsplit]
      by_cases hnew : ∃ col, col < 8 ∧ spriteBit (Memory.read m (dataAddr base n)) col = true ∧ pixelRow y0 n = r ∧
          pixelCol x0 col = c
      · obtain ⟨-, -, -, hr, -⟩ := id hnew
        have hnot := (hc r c).2 (hr ▸ hfresh c)
        rw [decide_eq_true hnew, hnot]
        simp [hnew]
      · rw [decide_eq_false hnew]
        simpa [hnew] using hc r c
    · unfold drawRow
      rw [hf', hf]
      constructor
      · rintro (⟨r, c, h, hon⟩ | ⟨col, hcol, hb, hon⟩)
        · exact ⟨r, c, (hsplit r c).mpr (.inl h), hon⟩
        · rw [(hc _ _).2 (hfresh _)] at hon
          exact ⟨_, _, (hsplit _ _).mpr (.inr ⟨col, hcol, hb, rfl, rfl⟩), hon⟩
      · rintro ⟨r, c, h, hon⟩
        rcases (hsplit r c).mp h with h | ⟨col, hcol, hb, rfl, rfl⟩
        · exact .inl ⟨r, c, h, hon⟩
        · exact .inr ⟨col, hcol, hb, by rw [(hc _ _).2 (hfresh _)]; exact hon⟩
end Sys2Proof.Machine
end

