-- ==== Sys2Proof/Laws/Step.lean ====
section
/-!
SUPPORT. What a step can do, said once; and what each boundary operation does to each piece of state.
-/

namespace Sys2Proof.Machine

/-- Everything a step can answer, by the phases of the cycle (40_step_cycle.md R126). -/
theorem step_cases (s : State) :
    (s.status ≠ .running ∧ step s = .next s) ∨
      (s.status = .running ∧
        ((∃ f, checkFetch s.pc = some f ∧ step s = .next (s.raise f)) ∨
          (checkFetch s.pc = none ∧
            ((decodeWord (Memory.fetchWord s.mem s.pc) = none ∧
                step s = .next (s.advancePc.raise (.decodeFault (Memory.fetchWord s.mem s.pc)))) ∨
              (∃ i, decodeWord (Memory.fetchWord s.mem s.pc) = some i ∧ step s = exec i s.advancePc))))) := by
  unfold step gatedCycle
  cases hs : s.status with
  | waiting => exact .inl ⟨by simp, rfl⟩
  | halted r => exact .inl ⟨by simp, rfl⟩
  | running =>
    refine .inr ⟨rfl, ?_⟩
    unfold runCycle
    cases hf : checkFetch s.pc with
    | some f => exact .inl ⟨f, rfl, rfl⟩
    | none =>
      refine .inr ⟨rfl, ?_⟩
      simp only [State.unlessFault_none, decodeAndExec]
      cases hd : decodeWord (Memory.fetchWord s.mem s.pc) with
      | none => exact .inl ⟨rfl, rfl⟩
      | some i => exact .inr ⟨i, rfl, rfl⟩

/-- A run of one operation after a run is that operation's answer. -/
theorem runOps_cons (op : Op) (ops : List Op) (s t : State) (h : applyOp op s = .next t) :
    runOps (op :: ops) s = runOps ops t := by
  simp [runOps, h]

/-- What holds at power-on and is kept by every operation holds of every reachable state. -/
theorem Reachable.induct {P : State → Prop} (h0 : P State.reset)
    (hop : ∀ op s t, P s → applyOp op s = .next t → P t) {s : State} (h : Reachable s) : P s := by
  induction h with
  | powerOn => exact h0
  | op o _ ha ih => exact hop o _ _ ih ha

/-! ### The timer unit -/

theorem decFloor_toNat (b : Byte) : (decFloor b).toNat = b.toNat - 1 := by
  unfold decFloor
  split
  · rename_i h; simp [h]
  · rename_i h
    have hb : b.toNat ≠ 0 := fun e => h (BitVec.eq_of_toNat_eq (by simpa using e))
    have := b.isLt
    rw [BitVec.toNat_sub]
    simp
    omega

@[simp] theorem State.tick_dt (s : State) : s.tick.dt = decFloor s.dt := rfl
@[simp] theorem State.tick_st (s : State) : s.tick.st = decFloor s.st := rfl

/-- A tick writes the two timers only. -/
theorem State.tick_eq (s : State) : s.tick = { s with dt := decFloor s.dt, st := decFloor s.st } := rfl

/-- What `AdvanceTimers` can do: nothing, one tick with the accumulator cleared, or an accumulation. -/
theorem State.advanceTimers_cases (s : State) (delta : Rat) :
    (delta < 0 ∧ s.advanceTimers delta = s) ∨
      (0 ≤ delta ∧ 1 / 60 ≤ s.acc + delta ∧ s.advanceTimers delta = s.tick.setAcc 0) ∨
      (0 ≤ delta ∧ s.acc + delta < 1 / 60 ∧ s.advanceTimers delta = s.setAcc (s.acc + delta)) := by
  unfold State.advanceTimers
  split
  · exact .inl ⟨‹_›, rfl⟩
  · rename_i h
    split
    · rename_i h'; exact .inr (.inl ⟨not_lt.mp h, h', rfl⟩)
    · rename_i h'; exact .inr (.inr ⟨not_lt.mp h, not_le.mp h', rfl⟩)

/-! ### The keypad -/

/-- What `SetKey` can do: nothing, the key bit, or the key bit and the end of a wait. -/
theorem State.setKey_cases (s : State) (id : Int) (p : Bool) :
    ((id < 0 ∨ 15 < id) ∧ s.setKey id p = s) ∨
      (0 ≤ id ∧ id ≤ 15 ∧ ¬ (p = true ∧ s.status = .waiting) ∧
        s.setKey id p = s.setKeyBit (BitVec.ofNat 4 id.toNat) p) ∨
      (0 ≤ id ∧ id ≤ 15 ∧ p = true ∧ s.status = .waiting ∧
        s.setKey id p = (s.setKeyBit (BitVec.ofNat 4 id.toNat) p).endWait (BitVec.ofNat 4 id.toNat)) := by
  unfold State.setKey
  split
  · exact .inl ⟨by omega, rfl⟩
  · rename_i h
    dsimp only
    split
    · rename_i h'; exact .inr (.inr ⟨by omega, by omega, h'.1, h'.2, rfl⟩)
    · rename_i h'; exact .inr (.inl ⟨by omega, by omega, h', rfl⟩)

theorem State.isPressed_setKeyBit (s : State) (k j : Nib) (b : Bool) :
    (s.setKeyBit k b).isPressed j = if j = k then b else s.isPressed j := by
  by_cases h : j = k
  · subst h; simp [State.isPressed, State.setKeyBit]
  · have hn : k.toNat ≠ j.toNat := fun e => h (BitVec.eq_of_toNat_eq e.symm)
    simp [State.isPressed, State.setKeyBit, h, Vector.getElem_set_ne _ _ hn]

/-! ### Reset and Load -/

/-- Reset of the power-on state is the power-on state. -/
theorem State.doReset_reset : State.reset.doReset = State.reset := rfl

/-- `Load` answers failure with no change, or success with the image in memory and nothing else changed. -/
theorem State.load_cases (s : State) (bytes : List Byte) :
    (maxImage < bytes.length ∧ s.load bytes = (.failure, s)) ∨
      (bytes.length ≤ maxImage ∧ s.load bytes = (.success, s.setMem (Memory.writeBytes s.mem 0x200 bytes))) := by
  unfold State.load
  split
  · exact .inl ⟨by omega, rfl⟩
  · exact .inr ⟨by omega, rfl⟩

/-! ### Fetching -/

/-- A word stored where it is fetched is the word fetched. -/
theorem Memory.fetchWord_placeWord (m : Memory) (a : Word) (w : Word) :
    Memory.fetchWord (Memory.placeWord m a w) a = w := by
  unfold Memory.fetchWord Memory.placeWord
  rw [Memory.read_writeBytes, Memory.read_writeBytes, dif_pos (by simp [bytesOfWord]),
    dif_pos (by simp [bytesOfWord])]
  simp only [bytesOfWord, wordOfBytes, highByte, lowByte]
  apply BitVec.eq_of_getLsbD_eq
  intro j hj
  show (_ ++ _ : BitVec (8 + 8)).getLsbD j = _
  rw [BitVec.getLsbD_append]
  split
  · simp [*]
  · simp [show j - 8 < 8 by omega, show 8 + (j - 8) = j by omega]

end Sys2Proof.Machine
end

