-- ==== Sys2Proof/Laws/Instr.lean ====
section
/-!
SUPPORT. What the meanings with more than one outcome can answer, said once each; and what the shared operations over
registers and digits give.
-/

namespace Sys2Proof.Machine

/-- `00EE`: an underflow, a pop, or a stop for want of a slot (41_control_flow.md R140). -/
theorem execRet_cases (s : State) :
    (s.sp.toNat = 0 ∧ execRet s = .next (s.raise .stackUnderflow)) ∨
      (1 ≤ s.sp.toNat ∧ s.sp.toNat ≤ 16 ∧ ∃ w, s.stackSlot s.sp.toNat = some w ∧
        execRet s = .next ((s.setPc w).setSp (s.sp - 1))) ∨
      (16 < s.sp.toNat ∧ execRet s = .fault (.noStackSlot s.sp.toNat)) := by
  unfold execRet
  by_cases h0 : s.sp = 0
  · exact .inl ⟨by simp [h0], if_pos h0⟩
  · have h1 : s.sp.toNat ≠ 0 := fun e => h0 (BitVec.eq_of_toNat_eq (by simpa using e))
    rw [if_neg h0]
    by_cases h16 : s.sp.toNat ≤ 16
    · obtain ⟨w, hw⟩ := Option.isSome_iff_exists.mp ((State.stackSlot_isSome s s.sp.toNat).mpr ⟨by omega, h16⟩)
      exact .inr (.inl ⟨by omega, h16, w, hw, by rw [hw]⟩)
    · exact .inr (.inr ⟨by omega, by rw [State.stackSlot_eq_none s (by omega)]⟩)

/-- `2nnn`: an overflow, a push, or a stop for want of a slot (41_control_flow.md R142). -/
theorem execCall_cases (nnn : Addr12) (s : State) :
    (s.sp.toNat = 16 ∧ execCall nnn s = .next (s.raise .stackOverflow)) ∨
      (s.sp.toNat < 16 ∧ execCall nnn s =
        .next (((s.setSp (s.sp + 1)).setStackSlot (s.sp.toNat + 1) s.pc).setPc (zextAddr nnn))) ∨
      (16 < s.sp.toNat ∧ execCall nnn s = .fault (.noStackSlot (s.sp.toNat + 1))) := by
  unfold execCall
  by_cases h : s.sp = 16
  · exact .inl ⟨by simp [h], if_pos h⟩
  · have h1 : s.sp.toNat ≠ 16 := fun e => h (BitVec.eq_of_toNat_eq (by simpa using e))
    rw [if_neg h]
    by_cases h2 : s.sp.toNat < 16
    · exact .inr (.inl ⟨h2, if_pos h2⟩)
    · exact .inr (.inr ⟨by omega, if_neg h2⟩)

/-- A skip moves the pc by 2 or leaves the state alone. -/
theorem State.skipIf_cases (s : State) (c : Bool) :
    (c = true ∧ s.skipIf c = s.advancePc) ∨ (c = false ∧ s.skipIf c = s) := by
  cases c
  · exact .inr ⟨rfl, rfl⟩
  · exact .inl ⟨rfl, rfl⟩

/-- Every instruction but `Fx0A` leaves `STATUS` alone or takes a fault, and then does nothing else
(40_step_cycle.md R130, 60_exceptions.md R268). -/
theorem exec_status {i : Instr} {s t : State} (h : exec i s = .next t) (hi : ∀ x, i ≠ .ldVxK x) :
    t.status = s.status ∨ ∃ f, t = s.raise f := by
  have checked : ∀ {check : Option HaltReason} {u : State},
      s.unlessFault check (.next u) = .next t → u.status = s.status → t.status = s.status ∨ ∃ f, t = s.raise f := by
    intro check u h hu
    rcases State.unlessFault_eq s check (.next u) with ⟨f, -, e⟩ | ⟨-, e⟩
    · rw [e] at h; cases h; exact .inr ⟨f, rfl⟩
    · rw [e] at h; cases h; exact .inl hu
  have skipped : ∀ {c : Bool}, s.skipIf c = t → t.status = s.status ∨ ∃ f, t = s.raise f := by
    rintro c rfl
    rcases State.skipIf_cases s c with ⟨-, e⟩ | ⟨-, e⟩ <;> rw [e] <;> exact .inl rfl
  cases i
  case ldVxK x => exact absurd rfl (hi x)
  case ret =>
    rcases execRet_cases s with ⟨-, e⟩ | ⟨-, -, w, -, e⟩ | ⟨-, e⟩ <;> cases e.symm.trans h
    · exact .inr ⟨_, rfl⟩
    · exact .inl rfl
  case call nnn =>
    rcases execCall_cases nnn s with ⟨-, e⟩ | ⟨-, e⟩ | ⟨-, e⟩ <;> cases e.symm.trans h
    · exact .inr ⟨_, rfl⟩
    · left; rw [State.setStackSlot_eq]; rfl
  case drw | ldB | ldMem => all_goals exact checked h rfl
  case ldVxMem => exact checked h (by rw [State.loadRegs_eq])
  case seImm | sneImm | seReg | sneReg | skp | sknp => all_goals exact skipped (Host.Outcome.next.inj h)
  all_goals
    cases h
    exact .inl rfl

/-- The result and the flag, read back: VF holds the flag even where it is the destination (42_load_alu.md R160). -/
theorem State.getV_setResultAndFlag (s : State) (x r : Nib) (b : Byte) (f : Bool) :
    (s.setResultAndFlag x b f).getV r = if r = 15 then flagByte f else if r = x then b else s.getV r := by
  rw [State.setResultAndFlag, State.getV_setFlag, State.getV_setV]

@[simp] theorem State.length_regsUpTo (s : State) (x : Nib) : (s.regsUpTo x).length = x.toNat + 1 := by
  have := x.isLt
  simp [State.regsUpTo]
  omega

/-- Entry `k` of the registers `Fx55` stores is `V[k]` (46_memory_ops.md R242). -/
theorem State.getElem_regsUpTo (s : State) (x : Nib) (k : Nat) (h : k < (s.regsUpTo x).length) :
    (s.regsUpTo x)[k] = s.getV (BitVec.ofNat 4 k) := by
  have hx := x.isLt
  rw [State.length_regsUpTo] at h
  have hk : (BitVec.ofNat 4 k).toNat = k := by simp [BitVec.toNat_ofNat]; omega
  simp [State.regsUpTo, State.getV, hk]

@[simp] theorem length_bcdDigits (b : Byte) : (bcdDigits b).length = 3 := rfl

/-- A fetched pc that is legal is even and in 0x200..0xFFE, so the pc after it is even and in 0x202..0x1000. -/
theorem State.advancePc_of_fetchable (s : State) (h : checkFetch s.pc = none) :
    s.advancePc.pc.toNat = s.pc.toNat + 2 := by
  have := (checkFetch_eq_none s.pc).mp h
  simp only [State.advancePc, State.setPc_pc, BitVec.toNat_add]
  simp
  omega

end Sys2Proof.Machine
end

