-- ==== Sys2Proof/Laws/PerInstr.lean ====
section
/-!
SUPPORT. The per-instruction family RowMatch: the word the encoder writes for an instruction agrees with the
instruction's own row of the opcode map (30_encoding.md R98). One lemma per constructor.
-/

namespace Sys2Proof.Laws

/-- The row of the opcode map that stands for the instruction. -/
def rowIndex : Instr → Fin 34
  | .cls => 0
  | .ret => 1
  | .jp _ => 2
  | .call _ => 3
  | .seImm _ _ => 4
  | .sneImm _ _ => 5
  | .seReg _ _ _ => 6
  | .ldImm _ _ => 7
  | .addImm _ _ => 8
  | .ldReg _ _ => 9
  | .orReg _ _ => 10
  | .andReg _ _ => 11
  | .xorReg _ _ => 12
  | .addReg _ _ => 13
  | .sub _ _ => 14
  | .shr _ _ => 15
  | .subn _ _ => 16
  | .shl _ _ => 17
  | .sneReg _ _ _ => 18
  | .ldI _ => 19
  | .jpV0 _ => 20
  | .rnd _ _ => 21
  | .drw _ _ _ => 22
  | .skp _ => 23
  | .sknp _ => 24
  | .ldVxDt _ => 25
  | .ldVxK _ => 26
  | .ldDtVx _ => 27
  | .ldStVx _ => 28
  | .addI _ => 29
  | .ldF _ => 30
  | .ldB _ => 31
  | .ldMem _ => 32
  | .ldVxMem _ => 33

/-- The encoded word hits the instruction's own row. -/
def RowMatch.Statement (i : Instr) : Prop :=
  ∃ r, opcodeMap[(rowIndex i).val]? = some r ∧ r.hits (encode i) = true

theorem RowMatch.cls : RowMatch.Statement .cls := ⟨_, rfl, by decide⟩

theorem RowMatch.ret : RowMatch.Statement .ret := ⟨_, rfl, by decide⟩

theorem RowMatch.jp (nnn : Addr12) : RowMatch.Statement (.jp nnn) := by
  refine ⟨_, rfl, ?_⟩
  simp only [OpcodeRow.hits, encode]
  erw [formatNNN_and]
  decide

theorem RowMatch.call (nnn : Addr12) : RowMatch.Statement (.call nnn) := by
  refine ⟨_, rfl, ?_⟩
  simp only [OpcodeRow.hits, encode]
  erw [formatNNN_and]
  decide

theorem RowMatch.seImm (x : Nib) (kk : Byte) : RowMatch.Statement (.seImm x kk) := by
  refine ⟨_, rfl, ?_⟩
  simp only [OpcodeRow.hits, encode]
  erw [formatXKK_and_family]
  decide

theorem RowMatch.sneImm (x : Nib) (kk : Byte) : RowMatch.Statement (.sneImm x kk) := by
  refine ⟨_, rfl, ?_⟩
  simp only [OpcodeRow.hits, encode]
  erw [formatXKK_and_family]
  decide

theorem RowMatch.seReg (x y n : Nib) : RowMatch.Statement (.seReg x y n) := by
  refine ⟨_, rfl, ?_⟩
  simp only [OpcodeRow.hits, encode]
  erw [formatXYN_and_family]
  decide

theorem RowMatch.ldImm (x : Nib) (kk : Byte) : RowMatch.Statement (.ldImm x kk) := by
  refine ⟨_, rfl, ?_⟩
  simp only [OpcodeRow.hits, encode]
  erw [formatXKK_and_family]
  decide

theorem RowMatch.addImm (x : Nib) (kk : Byte) : RowMatch.Statement (.addImm x kk) := by
  refine ⟨_, rfl, ?_⟩
  simp only [OpcodeRow.hits, encode]
  erw [formatXKK_and_family]
  decide

theorem RowMatch.ldReg (x y : Nib) : RowMatch.Statement (.ldReg x y) := by
  refine ⟨_, rfl, ?_⟩
  simp only [OpcodeRow.hits, encode]
  erw [formatXYN_and_sub]
  decide

theorem RowMatch.orReg (x y : Nib) : RowMatch.Statement (.orReg x y) := by
  refine ⟨_, rfl, ?_⟩
  simp only [OpcodeRow.hits, encode]
  erw [formatXYN_and_sub]
  decide

theorem RowMatch.andReg (x y : Nib) : RowMatch.Statement (.andReg x y) := by
  refine ⟨_, rfl, ?_⟩
  simp only [OpcodeRow.hits, encode]
  erw [formatXYN_and_sub]
  decide

theorem RowMatch.xorReg (x y : Nib) : RowMatch.Statement (.xorReg x y) := by
  refine ⟨_, rfl, ?_⟩
  simp only [OpcodeRow.hits, encode]
  erw [formatXYN_and_sub]
  decide

theorem RowMatch.addReg (x y : Nib) : RowMatch.Statement (.addReg x y) := by
  refine ⟨_, rfl, ?_⟩
  simp only [OpcodeRow.hits, encode]
  erw [formatXYN_and_sub]
  decide

theorem RowMatch.sub (x y : Nib) : RowMatch.Statement (.sub x y) := by
  refine ⟨_, rfl, ?_⟩
  simp only [OpcodeRow.hits, encode]
  erw [formatXYN_and_sub]
  decide

theorem RowMatch.shr (x y : Nib) : RowMatch.Statement (.shr x y) := by
  refine ⟨_, rfl, ?_⟩
  simp only [OpcodeRow.hits, encode]
  erw [formatXYN_and_sub]
  decide

theorem RowMatch.subn (x y : Nib) : RowMatch.Statement (.subn x y) := by
  refine ⟨_, rfl, ?_⟩
  simp only [OpcodeRow.hits, encode]
  erw [formatXYN_and_sub]
  decide

theorem RowMatch.shl (x y : Nib) : RowMatch.Statement (.shl x y) := by
  refine ⟨_, rfl, ?_⟩
  simp only [OpcodeRow.hits, encode]
  erw [formatXYN_and_sub]
  decide

theorem RowMatch.sneReg (x y n : Nib) : RowMatch.Statement (.sneReg x y n) := by
  refine ⟨_, rfl, ?_⟩
  simp only [OpcodeRow.hits, encode]
  erw [formatXYN_and_family]
  decide

theorem RowMatch.ldI (nnn : Addr12) : RowMatch.Statement (.ldI nnn) := by
  refine ⟨_, rfl, ?_⟩
  simp only [OpcodeRow.hits, encode]
  erw [formatNNN_and]
  decide

theorem RowMatch.jpV0 (nnn : Addr12) : RowMatch.Statement (.jpV0 nnn) := by
  refine ⟨_, rfl, ?_⟩
  simp only [OpcodeRow.hits, encode]
  erw [formatNNN_and]
  decide

theorem RowMatch.rnd (x : Nib) (kk : Byte) : RowMatch.Statement (.rnd x kk) := by
  refine ⟨_, rfl, ?_⟩
  simp only [OpcodeRow.hits, encode]
  erw [formatXKK_and_family]
  decide

theorem RowMatch.drw (x y n : Nib) : RowMatch.Statement (.drw x y n) := by
  refine ⟨_, rfl, ?_⟩
  simp only [OpcodeRow.hits, encode]
  erw [formatXYN_and_family]
  decide

theorem RowMatch.skp (x : Nib) : RowMatch.Statement (.skp x) := by
  refine ⟨_, rfl, ?_⟩
  simp only [OpcodeRow.hits, encode]
  erw [formatXKK_and_sub]
  decide

theorem RowMatch.sknp (x : Nib) : RowMatch.Statement (.sknp x) := by
  refine ⟨_, rfl, ?_⟩
  simp only [OpcodeRow.hits, encode]
  erw [formatXKK_and_sub]
  decide

theorem RowMatch.ldVxDt (x : Nib) : RowMatch.Statement (.ldVxDt x) := by
  refine ⟨_, rfl, ?_⟩
  simp only [OpcodeRow.hits, encode]
  erw [formatXKK_and_sub]
  decide

theorem RowMatch.ldVxK (x : Nib) : RowMatch.Statement (.ldVxK x) := by
  refine ⟨_, rfl, ?_⟩
  simp only [OpcodeRow.hits, encode]
  erw [formatXKK_and_sub]
  decide

theorem RowMatch.ldDtVx (x : Nib) : RowMatch.Statement (.ldDtVx x) := by
  refine ⟨_, rfl, ?_⟩
  simp only [OpcodeRow.hits, encode]
  erw [formatXKK_and_sub]
  decide

theorem RowMatch.ldStVx (x : Nib) : RowMatch.Statement (.ldStVx x) := by
  refine ⟨_, rfl, ?_⟩
  simp only [OpcodeRow.hits, encode]
  erw [formatXKK_and_sub]
  decide

theorem RowMatch.addI (x : Nib) : RowMatch.Statement (.addI x) := by
  refine ⟨_, rfl, ?_⟩
  simp only [OpcodeRow.hits, encode]
  erw [formatXKK_and_sub]
  decide

theorem RowMatch.ldF (x : Nib) : RowMatch.Statement (.ldF x) := by
  refine ⟨_, rfl, ?_⟩
  simp only [OpcodeRow.hits, encode]
  erw [formatXKK_and_sub]
  decide

theorem RowMatch.ldB (x : Nib) : RowMatch.Statement (.ldB x) := by
  refine ⟨_, rfl, ?_⟩
  simp only [OpcodeRow.hits, encode]
  erw [formatXKK_and_sub]
  decide

theorem RowMatch.ldMem (x : Nib) : RowMatch.Statement (.ldMem x) := by
  refine ⟨_, rfl, ?_⟩
  simp only [OpcodeRow.hits, encode]
  erw [formatXKK_and_sub]
  decide

theorem RowMatch.ldVxMem (x : Nib) : RowMatch.Statement (.ldVxMem x) := by
  refine ⟨_, rfl, ?_⟩
  simp only [OpcodeRow.hits, encode]
  erw [formatXKK_and_sub]
  decide

end Sys2Proof.Laws
end

