-- ==== Sys2Proof/Tests/Slice0.lean ====
section
/-!
SUPPORT. Tests of this model. Expected values come from spec/95_test_vectors.md (named T<n>) or are worked out from the
rule named in the comment; the instruction words are written out from the formats of spec/30_encoding.md. After the
tests stand the witnesses: concrete states and operands that meet the hypotheses of the statements in Certificates/.
-/

namespace Sys2Proof.Machine.Tests

/-! ### Well-formedness: the one check, refused by an ill-formed term of each of the two instructions that have it (R105) -/

theorem test_wellFormed_refuses_seReg_alias : (Instr.seReg 1 2 1).wellFormed = false := by decide
theorem test_wellFormed_refuses_sneReg_alias : (Instr.sneReg 1 2 15).wellFormed = false := by decide
theorem test_wellFormed_accepts_canonical :
    (Instr.seReg 1 2 0).wellFormed = true ∧ (Instr.shr 1 2).wellFormed = true := by decide

/-! ### Decoding: a word of every constructor, written out bit by bit (R92 to R96, R98) -/

theorem test_decode_family0 :
    decodeWord 0b0000000011100000 = some .cls ∧ decodeWord 0b0000000011101110 = some .ret := by decide
theorem test_decode_families_1_2 :
    decodeWord 0b0001101010111100 = some (.jp 0xABC) ∧ decodeWord 0b0010001100000001 = some (.call 0x301) := by decide
theorem test_decode_families_3_4 :
    decodeWord 0b0011101000010010 = some (.seImm 0xA 0x12) ∧
      decodeWord 0b0100101110000001 = some (.sneImm 0xB 0x81) := by decide
theorem test_decode_families_5_9 :
    decodeWord 0b0101000100100000 = some (.seReg 1 2 0) ∧ decodeWord 0b0101000100100001 = some (.seReg 1 2 1) ∧
      decodeWord 0b1001000100100000 = some (.sneReg 1 2 0) ∧ decodeWord 0b1001000100101111 = some (.sneReg 1 2 15) := by
  decide
theorem test_decode_families_6_7 :
    decodeWord 0b0110111110101011 = some (.ldImm 0xF 0xAB) ∧
      decodeWord 0b0111000100000101 = some (.addImm 1 0x05) := by decide
theorem test_decode_family8_logic :
    decodeWord 0b1000000100100000 = some (.ldReg 1 2) ∧ decodeWord 0b1000000100100001 = some (.orReg 1 2) ∧
      decodeWord 0b1000000100100010 = some (.andReg 1 2) ∧ decodeWord 0b1000000100100011 = some (.xorReg 1 2) := by
  decide
theorem test_decode_family8_arithmetic :
    decodeWord 0b1000000100100100 = some (.addReg 1 2) ∧ decodeWord 0b1000000100100101 = some (.sub 1 2) ∧
      decodeWord 0b1000000100100110 = some (.shr 1 2) ∧ decodeWord 0b1000000100100111 = some (.subn 1 2) ∧
      decodeWord 0b1000000100101110 = some (.shl 1 2) := by decide
theorem test_decode_families_A_B :
    decodeWord 0b1010001100000000 = some (.ldI 0x300) ∧ decodeWord 0b1011111111111110 = some (.jpV0 0xFFE) := by decide
theorem test_decode_families_C_D :
    decodeWord 0b1100000100001111 = some (.rnd 1 0x0F) ∧ decodeWord 0b1101101010110100 = some (.drw 0xA 0xB 4) := by
  decide
theorem test_decode_family_E :
    decodeWord 0b1110000010011110 = some (.skp 0) ∧ decodeWord 0b1110110010100001 = some (.sknp 0xC) := by decide
theorem test_decode_family_F_timers :
    decodeWord 0b1111000100000111 = some (.ldVxDt 1) ∧ decodeWord 0b1111001100001010 = some (.ldVxK 3) ∧
      decodeWord 0b1111001000010101 = some (.ldDtVx 2) ∧ decodeWord 0b1111001100011000 = some (.ldStVx 3) := by decide
theorem test_decode_family_F_address :
    decodeWord 0b1111000100011110 = some (.addI 1) ∧ decodeWord 0b1111000000101001 = some (.ldF 0) := by decide
theorem test_decode_family_F_memory :
    decodeWord 0b1111000000110011 = some (.ldB 0) ∧ decodeWord 0b1111001101010101 = some (.ldMem 3) ∧
      decodeWord 0b1111111101100101 = some (.ldVxMem 15) := by decide

/-- T140 to T144: the illegal words of the vectors. -/
theorem test_decode_illegal_families_0_8 :
    ([0x0000, 0x00E1, 0x00EF, 0x00FE, 0x0123, 0x01E0, 0x0FFF,
      0x8008, 0x8009, 0x800A, 0x800B, 0x800C, 0x800D, 0x800F].map decodeWord).all Option.isNone = true := by decide
theorem test_decode_illegal_families_E_F :
    ([0xE09F, 0xE000, 0xE0A0, 0xE19D, 0xF000, 0xF075, 0xF085, 0xF030, 0xFFFF].map decodeWord).all Option.isNone = true := by
  decide

/-- Bytes: big-endian, the rest left over; one byte is too few; the reason of a refusal (R90, R104, R66). -/
theorem test_decode_bytes :
    decode [0x12, 0x34, 0x99] = .ok (.jp 0x234, [0x99]) ∧ decode [0x12] = .error .truncated ∧
      decode [0x00, 0xE1] = .error (.illegal 0x00E1) := ⟨rfl, rfl, rfl⟩
theorem test_encode_formats :
    encode (.drw 0xA 0xB 4) = 0xDAB4 ∧ encode (.seReg 1 2 1) = 0x5121 ∧ encode (.ldMem 3) = 0xF355 ∧
      encode (.call 0x20A) = 0x220A ∧ encodeBytes (.ldB 0) = [0xF0, 0x33] := by decide
theorem test_decodeTableWord : decodeTableWord 16 0x3A12 = some (.seImm 0xA 0x12) ∧ decodeTableWord 16 0 = none := by
  decide

/-! ### Building small states and looking at one step -/

/-- The reset state with some registers set. -/
def regs (l : List (Nib × Byte)) : State := l.foldl (fun s p => s.setV p.1 p.2) State.reset

/-- A byte of memory set. -/
def poke (s : State) (a : Nat) (b : Byte) : State := s.setMem (Memory.write s.mem a b)

/-- The answer is a next state of which `p` holds. -/
def lands (o : Host.Outcome State Fault Refusal) (p : State → Bool) : Bool :=
  match o with
  | .next t => p t
  | _ => false

/-- One step on the word `w`, placed where the step fetches. -/
def runs (w : Nat) (s : State) (p : State → Bool) : Bool := lands (step (s.withFetchWord 16 w)) p

/-- The step faulted with `f`, and left the pc at `pc`. -/
def faultedAt (f : HaltReason) (pc : Word) (t : State) : Bool := t.status == .halted f && t.pc == pc

/-! ### Control flow (vectors 2.1) -/

/-- T1. -/
theorem test_jp : runs 0x1ABC .reset (fun t => t.pc == 0xABC && t.status == .running) = true := by decide
/-- T3, T4. -/
theorem test_call_pushes :
    runs 0x2300 .reset (fun t => t.sp == 1 && t.stackSlot 1 == some 0x202 && t.pc == 0x300) = true ∧
      runs 0x2300 (State.reset.setSp 15) (fun t => t.sp == 16 && t.stackSlot 16 == some 0x202) = true := by decide
/-- T5, T9. -/
theorem test_call_edges :
    runs 0x2300 (State.reset.setSp 16) (fun t => faultedAt .stackOverflow 0x202 t && t.sp == 16) = true ∧
      runs 0x2300 (State.reset.setPc 0xFFE) (fun t => t.stackSlot 1 == some 0x1000 && t.pc == 0x300) = true := by decide
/-- T7. -/
theorem test_ret_underflow :
    runs 0x00EE .reset (fun t => faultedAt .stackUnderflow 0x202 t && t.sp == 0) = true := by decide
/-- T8; the slot keeps its content (R29). -/
theorem test_ret_pops :
    runs 0x00EE ((State.reset.setSp 16).setStackSlot 16 0x456)
      (fun t => t.pc == 0x456 && t.sp == 15 && t.stackSlot 16 == some 0x456) = true := by decide
/-- T10, T12. -/
theorem test_seImm_taken :
    runs 0x3A12 (regs [(0xA, 0x12)]) (fun t => t.pc == 0x204) = true ∧
      runs 0x3A12 ((regs [(0xA, 0x12)]).setPc 0xFFE) (fun t => t.pc == 0x1002) = true := by decide
/-- T11. -/
theorem test_seImm_not_taken : runs 0x3A12 (regs [(0xA, 0x13)]) (fun t => t.pc == 0x202) = true := by decide
/-- T13, T14. -/
theorem test_sneImm :
    runs 0x4A12 (regs [(0xA, 0x12)]) (fun t => t.pc == 0x202) = true ∧
      runs 0x4A12 (regs [(0xA, 0x13)]) (fun t => t.pc == 0x204) = true := by decide
/-- T15, T16, T17. -/
theorem test_seReg :
    runs 0x5120 (regs [(1, 7), (2, 7)]) (fun t => t.pc == 0x204) = true ∧
      runs 0x5121 (regs [(1, 3), (2, 3)]) (fun t => t.pc == 0x204) = true ∧
      runs 0x5110 (regs [(1, 9)]) (fun t => t.pc == 0x204) = true := by decide
/-- T18, T19, T20. -/
theorem test_sneReg :
    runs 0x9120 (regs [(1, 7), (2, 8)]) (fun t => t.pc == 0x204) = true ∧
      runs 0x9120 (regs [(1, 7), (2, 7)]) (fun t => t.pc == 0x202) = true ∧
      runs 0x912F (regs [(1, 3), (2, 4)]) (fun t => t.pc == 0x204) = true := by decide
/-- T21, T22. -/
theorem test_jpV0 :
    runs 0xB300 (regs [(0, 4)]) (fun t => t.pc == 0x304) = true ∧
      runs 0xBFFF (regs [(0, 0xFF)]) (fun t => t.pc == 0x10FE) = true := by decide

/-! ### Load immediate and ALU (vectors 2.2) -/

/-- T30, T31. -/
theorem test_ldImm :
    runs 0x6A12 .reset (fun t => t.getV 0xA == 0x12 && t.pc == 0x202) = true ∧
      runs 0x6FAB .reset (fun t => t.getV 15 == 0xAB) = true := by decide
/-- T32, T34. -/
theorem test_addImm :
    runs 0x7105 (regs [(1, 0xFE), (15, 7)]) (fun t => t.getV 1 == 3 && t.getV 15 == 7) = true ∧
      runs 0x7FFF (regs [(15, 1)]) (fun t => t.getV 15 == 0) = true := by decide
/-- T35. -/
theorem test_ldReg : runs 0x8120 (regs [(2, 0x7F)]) (fun t => t.getV 1 == 0x7F && t.getV 2 == 0x7F) = true := by decide
/-- T36. -/
theorem test_orReg :
    runs 0x8121 (regs [(1, 0x0F), (2, 0xF0), (15, 1)]) (fun t => t.getV 1 == 0xFF && t.getV 15 == 1) = true := by decide
/-- T37. -/
theorem test_andReg :
    runs 0x8122 (regs [(1, 0x3C), (2, 0x0F), (15, 1)]) (fun t => t.getV 1 == 0x0C && t.getV 15 == 1) = true := by decide
/-- T38, T39. -/
theorem test_xorReg :
    runs 0x8123 (regs [(1, 0xFF), (2, 0x0F), (15, 1)]) (fun t => t.getV 1 == 0xF0 && t.getV 15 == 1) = true ∧
      runs 0x8113 (regs [(1, 0xA5)]) (fun t => t.getV 1 == 0) = true := by decide
/-- T40, T43. -/
theorem test_addReg :
    runs 0x8014 (regs [(0, 0xC8), (1, 0x64)]) (fun t => t.getV 0 == 0x2C && t.getV 15 == 1) = true ∧
      runs 0x8124 (regs [(1, 0x80), (2, 0x7F), (15, 1)]) (fun t => t.getV 1 == 0xFF && t.getV 15 == 0) = true := by decide
/-- T45. -/
theorem test_addReg_flag_wins :
    runs 0x8FF4 (regs [(15, 0x80)]) (fun t => t.getV 15 == 1) = true ∧
      runs 0x8FF4 (regs [(15, 0x7F)]) (fun t => t.getV 15 == 0) = true := by decide
/-- T47, T48. -/
theorem test_sub :
    runs 0x8015 (regs [(0, 5), (1, 0xA)]) (fun t => t.getV 0 == 0xFB && t.getV 15 == 0) = true ∧
      runs 0x8015 (regs [(0, 7), (1, 7)]) (fun t => t.getV 0 == 0 && t.getV 15 == 1) = true := by decide
/-- T51. -/
theorem test_sub_flag_wins :
    runs 0x8F15 (regs [(15, 0), (1, 1)]) (fun t => t.getV 15 == 0) = true ∧
      runs 0x8FF5 (regs [(15, 9)]) (fun t => t.getV 15 == 1) = true := by decide
/-- T53, T54. -/
theorem test_shr :
    runs 0x8126 (regs [(1, 6), (2, 0xFF)]) (fun t => t.getV 1 == 3 && t.getV 15 == 0 && t.getV 2 == 0xFF) = true ∧
      runs 0x8106 (regs [(1, 1)]) (fun t => t.getV 1 == 0 && t.getV 15 == 1) = true := by decide
/-- T55. -/
theorem test_shr_flag_wins :
    runs 0x8FF6 (regs [(15, 3)]) (fun t => t.getV 15 == 1) = true ∧
      runs 0x8FF6 (regs [(15, 2)]) (fun t => t.getV 15 == 0) = true := by decide
/-- T57, T58. -/
theorem test_subn :
    runs 0x8017 (regs [(0, 0xA), (1, 5)]) (fun t => t.getV 0 == 0xFB && t.getV 15 == 0) = true ∧
      runs 0x8017 (regs []) (fun t => t.getV 0 == 0 && t.getV 15 == 1) = true := by decide
/-- T59, T60. -/
theorem test_shl :
    runs 0x810E (regs [(1, 0x81)]) (fun t => t.getV 1 == 2 && t.getV 15 == 1) = true ∧
      runs 0x812E (regs [(1, 0x40), (2, 0xFF), (15, 1)])
        (fun t => t.getV 1 == 0x80 && t.getV 15 == 0 && t.getV 2 == 0xFF) = true := by decide
/-- T62. -/
theorem test_shl_flag_wins :
    runs 0x8FFE (regs [(15, 0x80)]) (fun t => t.getV 15 == 1) = true ∧
      runs 0x8FFE (regs [(15, 0x40)]) (fun t => t.getV 15 == 0) = true := by decide

/-! ### Address register and random (vectors 2.3) -/

/-- T65. -/
theorem test_ldI : runs 0xA300 (State.reset.setI 0xFFFF) (fun t => t.i == 0x300) = true := by decide
/-- T67, T68. -/
theorem test_addI :
    runs 0xF01E ((regs [(0, 1)]).setI 0xFFF) (fun t => t.i == 0x1000 && t.getV 15 == 0) = true ∧
      runs 0xF01E ((regs [(0, 1)]).setI 0xFFFF) (fun t => t.i == 0 && t.status == .running) = true := by decide
/-- T69. -/
theorem test_addI_vf : runs 0xFF1E ((regs [(15, 1)]).setI 0x10) (fun t => t.i == 0x11 && t.getV 15 == 1) = true := by
  decide
/-- T70, T71, T72. -/
theorem test_ldF :
    runs 0xF029 (regs [(0, 0xA)]) (fun t => t.i == 0x32) = true ∧
      runs 0xF029 (regs [(0, 0x10)]) (fun t => t.i == 0x50) = true ∧
      runs 0xF029 (regs [(0, 0xFF)]) (fun t => t.i == 0x4FB) = true := by decide
/-- T73: the vector's draw is a premise, for the draw is free. -/
theorem test_rnd_masks (h : Config.draw 0 = 0xA7) :
    ∃ t, exec (.rnd 1 0x0F) State.reset = .next t ∧ t.getV 1 = 0x07 ∧ t.draws = 1 := by
  refine ⟨_, rfl, ?_, rfl⟩
  rw [State.getV_setDraws, State.getV_setV_self, show State.reset.draws = 0 from rfl, h]
  decide
/-- T74. -/
theorem test_rnd_mask_zero : ∃ t, exec (.rnd 1 0) (regs [(1, 9)]) = .next t ∧ t.getV 1 = 0 := by
  refine ⟨_, rfl, ?_⟩
  rw [State.getV_setDraws, State.getV_setV_self]
  exact BitVec.and_zero

/-! ### Graphics (vectors 2.4) -/

/-- T80. -/
theorem test_cls :
    runs 0x00E0 ((regs [(15, 1)]).setFb (Framebuffer.flip Framebuffer.clear 31 63))
      (fun t => !Framebuffer.cell t.fb 31 63 && t.getV 15 == 1) = true := by decide
/-- T83: four cells inverted, one of them collided. -/
theorem test_drw_collision :
    runs 0xD121 (((poke (regs [(1, 2), (2, 1)]) 0x300 0xF0).setI 0x300).setFb (Framebuffer.flip Framebuffer.clear 1 5))
      (fun t => Framebuffer.cell t.fb 1 2 && Framebuffer.cell t.fb 1 4 && !Framebuffer.cell t.fb 1 5 &&
        !Framebuffer.cell t.fb 1 6 && t.getV 15 == 1) = true := by decide
/-- T84, T85, T90: wrap, and VF as a coordinate. -/
theorem test_drw_wrap :
    runs 0xD121 ((poke (regs [(1, 0xFF), (2, 0xFF)]) 0x300 0x81).setI 0x300)
        (fun t => Framebuffer.cell t.fb 31 63 && Framebuffer.cell t.fb 31 6 && t.getV 15 == 0) = true ∧
      runs 0xD121 ((poke (regs [(1, 64), (2, 32)]) 0x300 0x80).setI 0x300)
        (fun t => Framebuffer.cell t.fb 0 0 && t.getV 15 == 0) = true ∧
      runs 0xDFF1 ((poke (regs [(15, 5)]) 0x300 0x80).setI 0x300)
        (fun t => Framebuffer.cell t.fb 5 5 && t.getV 15 == 0) = true := by decide
/-- T86, T88, T89. -/
theorem test_drw_checks :
    runs 0xD010 ((regs [(15, 1)]).setI 0xFFFF) (fun t => t.status == .running && t.getV 15 == 0) = true ∧
      runs 0xD012 ((regs [(15, 1)]).setI 0xFFF)
        (fun t => faultedAt (.addressFault 0x1000) 0x202 t && t.getV 15 == 1) = true ∧
      runs 0xD011 (State.reset.setI 0x1000) (faultedAt (.addressFault 0x1000) 0x202) = true := by decide

/-! ### Keypad and timers (vectors 2.5 and part 3) -/

/-- T95, T96, T97. -/
theorem test_skp :
    runs 0xE09E ((regs [(0, 7)]).setKeyBit 7 true) (fun t => t.pc == 0x204 && t.isPressed 7) = true ∧
      runs 0xE09E (regs [(0, 7)]) (fun t => t.pc == 0x202) = true ∧
      runs 0xE09E ((regs [(0, 0x17)]).setKeyBit 7 true) (fun t => t.pc == 0x204) = true := by decide
/-- T98, T99. -/
theorem test_sknp :
    runs 0xE0A1 (regs [(0, 7)]) (fun t => t.pc == 0x204) = true ∧
      runs 0xE0A1 ((regs [(0, 0x17)]).setKeyBit 7 true) (fun t => t.pc == 0x202) = true := by decide
/-- T102, T105: a key already held does not end the wait. -/
theorem test_ldVxK_waits :
    runs 0xF30A (State.reset.setKeyBit 4 true) (fun t => t.status == .waiting && t.wx == 3 && t.pc == 0x202) = true := by
  decide
/-- T104. -/
theorem test_ldVxK_press :
    runs 0xF30A .reset (fun t => let u := t.setKey 0xB true
      u.status == .running && u.getV 3 == 0x0B && u.isPressed 11) = true := by decide
/-- T106. -/
theorem test_ldVxDt : runs 0xF107 (State.reset.setDt 0x3C) (fun t => t.getV 1 == 0x3C && t.dt == 0x3C) = true := by decide
/-- T107. -/
theorem test_ldDtVx : runs 0xF215 (regs [(2, 0x3C)]) (fun t => t.dt == 0x3C && t.st == 0) = true := by decide
/-- T108, T109. -/
theorem test_ldStVx :
    runs 0xF318 (regs [(3, 5)]) (fun t => t.st == 5 && t.shouldPlayTone) = true ∧
      runs 0xF318 (State.reset.setSt 9) (fun t => t.st == 0 && !t.shouldPlayTone) = true := by decide

/-! ### Memory instructions (vectors 2.6) -/

/-- T100, T111. -/
theorem test_ldB :
    runs 0xF033 ((regs [(0, 234)]).setI 0x300) (fun t => Memory.read t.mem 0x300 == 2 &&
        Memory.read t.mem 0x301 == 3 && Memory.read t.mem 0x302 == 4 && t.i == 0x300) = true ∧
      runs 0xF033 ((regs [(0, 255)]).setI 0xFFD) (fun t => Memory.read t.mem 0xFFD == 2 &&
        Memory.read t.mem 0xFFE == 5 && Memory.read t.mem 0xFFF == 5) = true := by decide
/-- T112, T113, T114. -/
theorem test_ldB_faults :
    runs 0xF033 ((regs [(0, 255)]).setI 0xFFE)
        (fun t => faultedAt (.addressFault 0x1000) 0x202 t && Memory.read t.mem 0xFFE == 0) = true ∧
      runs 0xF033 ((regs [(0, 234)]).setI 0x1FF) (faultedAt (.addressFault 0x1FF) 0x202) = true ∧
      runs 0xF033 ((regs [(0, 1)]).setI 0x1005) (faultedAt (.addressFault 0x1005) 0x202) = true := by decide
/-- T110 (its first step), T117. -/
theorem test_ldMem :
    runs 0xF355 ((regs [(0, 0x11), (1, 0x22), (2, 0x33), (3, 0x44), (4, 0x55)]).setI 0x400)
        (fun t => Memory.read t.mem 0x400 == 0x11 && Memory.read t.mem 0x403 == 0x44 &&
          Memory.read t.mem 0x404 == 0 && t.i == 0x400) = true ∧
      runs 0xF055 ((regs [(0, 9)]).setI 0xFFF) (fun t => Memory.read t.mem 0xFFF == 9) = true := by decide
/-- T116, T118. -/
theorem test_ldMem_faults :
    runs 0xFF55 ((regs [(0, 9)]).setI 0xFF1)
        (fun t => faultedAt (.addressFault 0x1000) 0x202 t && Memory.read t.mem 0xFF1 == 0) = true ∧
      runs 0xF155 ((regs [(1, 9)]).setI 0x1FF) (faultedAt (.addressFault 0x1FF) 0x202) = true := by decide
/-- T119, T121. -/
theorem test_ldVxMem_faults :
    runs 0xFF65 ((regs [(0, 9)]).setI 0xFF1)
        (fun t => faultedAt (.addressFault 0x1000) 0x202 t && t.getV 0 == 9) = true ∧
      runs 0xF065 (State.reset.setI 0x1000) (faultedAt (.addressFault 0x1000) 0x202) = true := by decide
/-- R243: `V[0]` to `V[x]` inclusive, the register above untouched; reading below 0x200 is legal (R61). -/
theorem test_ldVxMem :
    runs 0xF165 ((poke (poke (regs [(2, 7)]) 0x400 0xAA) 0x401 0xBB).setI 0x400)
        (fun t => t.getV 0 == 0xAA && t.getV 1 == 0xBB && t.getV 2 == 7 && t.i == 0x400) = true ∧
      runs 0xF065 ((regs [(0, 9)]).setI 0x50) (fun t => t.getV 0 == 0 && t.status == .running) = true := by decide

/-! ### Fetch, decode and the cycle (vectors 2.7 and 2.8) -/

/-- T137, T140. -/
theorem test_step_unloaded : lands (step .reset) (faultedAt (.decodeFault 0) 0x202) = true := by decide
/-- T150, T151, T152, T154. -/
theorem test_fetch_faults :
    lands (step (State.reset.setPc 0x201)) (faultedAt (.addressFault 0x201) 0x201) = true ∧
      lands (step (State.reset.setPc 0x1FE)) (faultedAt (.addressFault 0x1FE) 0x1FE) = true ∧
      lands (step (State.reset.setPc 0x1000)) (faultedAt (.addressFault 0x1000) 0x1000) = true ∧
      lands (step (State.reset.setPc 0xFFF)) (faultedAt (.addressFault 0xFFF) 0xFFF) = true := by decide
/-- T153. -/
theorem test_fetch_last_word :
    lands (step ((poke (poke .reset 0xFFE 0x12) 0xFFF 0x00).setPc 0xFFE)) (fun t => t.pc == 0x200) = true := by decide
/-- T103, T138. -/
theorem test_step_gated :
    lands (step (State.reset.setStatus .waiting)) (fun t => t.pc == 0x200 && t.status == .waiting) = true ∧
      lands (step (State.reset.setStatus (.halted .stackUnderflow)))
        (fun t => t.pc == 0x200 && t.status == .halted .stackUnderflow) = true := by decide

/-! ### Boundary operations (part 3) -/

/-- T123, T127. -/
theorem test_advanceTimers :
    ((State.reset.setDt 10).advanceTimers 1).dt = 9 ∧ ((State.reset.setDt 5).advanceTimers (-1)).dt = 5 := by
  constructor
  · norm_num [State.advanceTimers, State.reset, State.tick, decFloor]
    decide
  · norm_num [State.advanceTimers, State.reset, State.tick, decFloor]
/-- T120. -/
theorem test_advanceTimers_accumulates :
    ((State.reset.setDt 10).advanceTimers (1 / 120)).dt = 10 ∧
      (((State.reset.setDt 10).advanceTimers (1 / 120)).advanceTimers (1 / 120)).dt = 9 := by
  constructor
  · norm_num [State.advanceTimers, State.reset, State.tick, decFloor]
  · norm_num [State.advanceTimers, State.reset, State.tick, decFloor]
    decide
/-- T124 (the floor). -/
theorem test_tick_floor : (State.reset.setDt 1).tick.dt = 0 ∧ (State.reset.setDt 1).tick.st = 0 := by decide
/-- T129. -/
theorem test_setKey_rejects :
    ((State.reset.setStatus .waiting).setKey 16 true).status = .waiting ∧
      ((State.reset.setStatus .waiting).setKey (-1) true).status = .waiting := by decide
/-- T132, T133. -/
theorem test_setKey :
    (State.reset.setKey 5 true).isPressed 5 = true ∧
      ((State.reset.setStatus .waiting).setKey 5 false).status = .waiting := by decide
/-- T130, T131. -/
theorem test_load_limit :
    (State.reset.load (List.replicate 3584 1)).1 = .success ∧
      State.reset.load (List.replicate 3585 1) = (.failure, State.reset) := by
  constructor
  · rw [State.load, if_neg (by rw [List.length_replicate]; decide)]
  · exact if_pos (by rw [List.length_replicate]; decide)
/-- T135. -/
theorem test_load_twice :
    let t := ((State.reset.load [0xAA, 0xBB, 0xCC, 0xDD]).2.load [0x11, 0x22]).2
    Memory.read t.mem 0x200 = 0x11 ∧ Memory.read t.mem 0x201 = 0x22 ∧ Memory.read t.mem 0x202 = 0xCC ∧
      Memory.read t.mem 0x203 = 0xDD := by decide
/-- T136: a reset keeps the program's own stores. -/
theorem test_reset_keeps_memory :
    let t := (((poke (regs [(3, 9)]) 0x20A 0x62).setSp 4).setStatus (.halted .stackOverflow)).doReset
    Memory.read t.mem 0x20A = 0x62 ∧ t.getV 3 = 0 ∧ t.sp = 0 ∧ t.pc = 0x200 ∧ t.status = .running := by decide

/-! ### Witnesses: the hypotheses of the statements are met -/

theorem witness_O2 : decodeWord 0x5121 = some (.seReg 1 2 1) ∧ decodeWord 0xFFFF = none := by decide

/-- At the first and at the last address a fetch is legal from. -/
theorem witness_O4 :
    (State.reset.status = .running ∧ State.reset.pc.toNat % 2 = 0 ∧ 0x200 ≤ State.reset.pc.toNat ∧
      State.reset.pc.toNat ≤ 0xFFE ∧ (0 : Word).toNat = (Memory.read State.reset.mem State.reset.pc.toNat).toNat * 256 +
        (Memory.read State.reset.mem (State.reset.pc.toNat + 1)).toNat ∧ decodeWord 0 = none) ∧
    let s := (poke (poke .reset 0xFFE 0xFF) 0xFFF 0xFE).setPc 0xFFE
    s.status = .running ∧ s.pc.toNat % 2 = 0 ∧ 0x200 ≤ s.pc.toNat ∧ s.pc.toNat ≤ 0xFFE ∧
      (0xFFFE : Word).toNat = (Memory.read s.mem s.pc.toNat).toNat * 256 + (Memory.read s.mem (s.pc.toNat + 1)).toNat ∧
      decodeWord 0xFFFE = none := by decide

/-- At the first address a fetch is legal from. -/
theorem witness_O7_first :
    let s := State.reset.withFetchWord 16 0x6005
    s.status = .running ∧ s.pc.toNat % 2 = 0 ∧ 0x200 ≤ s.pc.toNat ∧ s.pc.toNat ≤ 0xFFE ∧ s.pc = 0x200 ∧
      decode [Memory.read s.mem s.pc.toNat, Memory.read s.mem (s.pc.toNat + 1)] = .ok (.ldImm 0 5, []) :=
  ⟨by decide, by decide, by decide, by decide, by decide, rfl⟩

/-- At the last address a fetch is legal from, an alias word. -/
theorem witness_O7_last :
    let s := (State.reset.setPc 0xFFE).withFetchWord 16 0x5121
    s.status = .running ∧ s.pc.toNat % 2 = 0 ∧ 0x200 ≤ s.pc.toNat ∧ s.pc.toNat ≤ 0xFFE ∧ s.pc = 0xFFE ∧
      decode [Memory.read s.mem s.pc.toNat, Memory.read s.mem (s.pc.toNat + 1)] = .ok (.seReg 1 2 1, []) :=
  ⟨by decide, by decide, by decide, by decide, by decide, rfl⟩

theorem witness_O8 :
    (State.reset.setStatus (.halted (.decodeFault 0))).status = .halted (.decodeFault 0) ∧
      (State.reset.setStatus .waiting).status = .waiting := by decide

/-- One state for each way a fetch fails, and both ends of the legal range. -/
theorem witness_O9 :
    ([0x201, 0xFFF, 0x1FE, 0x1000, 0x1001].all (fun a =>
      let s := State.reset.setPc a
      s.status == .running && (s.pc.toNat % 2 == 1 || decide (s.pc.toNat < 0x200) || decide (0xFFE < s.pc.toNat))) =
        true) ∧
    ([0x200, 0xFFE].all (fun a : Word =>
      a.toNat % 2 == 0 && decide (0x200 ≤ a.toNat) && decide (a.toNat ≤ 0xFFE)) = true) := by decide

/-- A fault in each phase: fetch, decode, execute. -/
theorem witness_O10 :
    (∃ t, State.reset.status = .running ∧ step (State.reset.setPc 0x201) = .next t ∧
      t.status = .halted (.addressFault 0x201)) ∧
    (∃ t, step State.reset = .next t ∧ t.status = .halted (.decodeFault 0)) ∧
    ∃ t, step (State.reset.withFetchWord 16 0x00EE) = .next t ∧ t.status = .halted .stackUnderflow :=
  ⟨⟨_, rfl, rfl, rfl⟩, ⟨_, rfl, rfl⟩, ⟨_, rfl, rfl⟩⟩

/-- Each instruction that can fault does. -/
theorem witness_O11 :
    State.reset.status = .running ∧
    lands (exec .ret State.reset) (fun t => t.status == .halted .stackUnderflow) = true ∧
    lands (exec (.call 0x300) (State.reset.setSp 16)) (fun t => t.status == .halted .stackOverflow) = true ∧
    lands (exec (.drw 0 0 1) (State.reset.setI 0x1000)) (fun t => t.status == .halted (.addressFault 0x1000)) = true ∧
    lands (exec (.ldB 0) State.reset) (fun t => t.status == .halted (.addressFault 0)) = true ∧
    lands (exec (.ldMem 0) State.reset) (fun t => t.status == .halted (.addressFault 0)) = true ∧
    lands (exec (.ldVxMem 0) (State.reset.setI 0xFFFF)) (fun t => t.status == .halted (.addressFault 0xFFFF)) = true := by
  decide

/-- Every row of the table: the operation, the status before it, and that it has a next state. -/
theorem witness_O12 :
    let halted := State.reset.setStatus (.halted .stackUnderflow)
    let waiting := State.reset.setStatus .waiting
    lands (applyOp .reset halted) (fun t => t.status == .running) = true ∧
    lands (applyOp (.setKey 0 true) halted) (fun t => t.status == halted.status) = true ∧
    lands (applyOp .step (State.reset.setPc 0xFFF)) (fun t => t.status == .halted (.addressFault 0xFFF)) = true ∧
    lands (applyOp .step State.reset) (fun t => t.status == .halted (.decodeFault 0)) = true ∧
    lands (applyOp .step (State.reset.withFetchWord 16 0x00EE)) (fun t => t.status == .halted .stackUnderflow) = true ∧
    lands (applyOp .step (State.reset.withFetchWord 16 0xF30A)) (fun t => t.status == .waiting) = true ∧
    lands (applyOp .step (State.reset.withFetchWord 16 0x6000)) (fun t => t.status == .running) = true ∧
    lands (applyOp .framebuffer State.reset) (fun t => t.status == .running) = true ∧
    lands (applyOp .step waiting) (fun t => t.status == .waiting) = true ∧
    lands (applyOp (.setKey 16 true) waiting) (fun t => t.status == .waiting) = true ∧
    lands (applyOp (.setKey 0 true) waiting) (fun t => t.status == .running) = true ∧
    lands (applyOp (.setKey 15 true) waiting) (fun t => t.status == .running && t.getV 0 == 15) = true := by decide

/-- A step that writes no timer, and one of each that writes one. -/
theorem witness_O13 :
    lands (step (State.reset.withFetchWord 16 0x6000)) (fun t => t.dt == 0) = true ∧
    lands (step ((regs [(2, 7)]).withFetchWord 16 0xF215)) (fun t => t.dt == 7) = true ∧
    lands (step ((regs [(2, 7)]).withFetchWord 16 0xF218)) (fun t => t.st == 7) = true := by decide

/-- A next state with a store, and one without; and an address outside the stored bytes. -/
theorem witness_O14 :
    (∃ t, exec (.ldMem 1) (State.reset.setI 0xFFE) = .next t) ∧ ¬ StoresAt (.ldMem 1) (State.reset.setI 0xFFE) 0xFFD ∧
    ∃ t, exec (.drw 0 1 2) State.reset = .next t :=
  ⟨⟨_, rfl⟩, by simp [StoresAt], ⟨_, rfl⟩⟩

/-- An instruction of the list, a draw that faults and one that does not, an instruction outside the list. -/
theorem witness_O15 :
    (∃ t, exec (.addReg 15 1) State.reset = .next t) ∧
    (∃ t, exec (.drw 0 1 1) (State.reset.setI 0x1000) = .next t) ∧ (∃ t, exec (.drw 0 1 0) State.reset = .next t) ∧
    ((15 : Nib) ∉ writtenRegs (.addImm 1 5)) ∧ ∃ t, exec (.addImm 1 5) State.reset = .next t :=
  ⟨⟨_, rfl⟩, ⟨_, rfl⟩, ⟨_, rfl⟩, by decide, ⟨_, rfl⟩⟩

theorem witness_O16 : (∃ t, step State.reset = .next t) ∧ 0x1FF < 0x200 := ⟨⟨_, rfl⟩, by decide⟩

/-- An odd target and one below 0x200. -/
theorem witness_O17 :
    State.reset.status = .running ∧ (0xFFF : Addr12).toNat % 2 = 1 ∧ (0x1FE : Addr12).toNat < 0x200 := by decide

/-- An odd sum, one below 0x200, and the greatest sum. -/
theorem witness_O18 :
    lands (exec (.jpV0 0x300) (regs [(0, 1)])) (fun t => t.pc.toNat % 2 == 1) = true ∧
    lands (exec (.jpV0 0x1FE) (regs [])) (fun t => decide (t.pc.toNat < 0x200)) = true ∧
    lands (exec (.jpV0 0xFFF) (regs [(0, 0xFF)])) (fun t => decide (0xFFE < t.pc.toNat)) = true ∧
    (regs []).status = .running := by decide

/-- A taken skip of an instruction fetched from 0xFFE. -/
theorem witness_O22 :
    let s := (regs [(0xA, 0x12)]).setPc 0x1000
    s.status = .running ∧ lands (exec (.seImm 0xA 0x12) s) (fun t => decide (0xFFE < t.pc.toNat)) = true := by decide

theorem witness_O19_O20_O21 :
    (State.reset.setSp 0).sp.toNat = 0 ∧ 1 ≤ (State.reset.setSp 1).sp.toNat ∧ (State.reset.setSp 15).sp.toNat < 16 ∧
      (State.reset.setSp 16).sp.toNat = 16 ∧ 16 < (State.reset.setSp 17).sp.toNat ∧
      16 < (State.reset.setSp 255).sp.toNat := by decide

/-- A call fetched from the first and from the last slot; a bad target, odd and low. -/
theorem witness_O19_fetched :
    checkFetch 0x200 = none ∧ (State.reset.setPc 0x202).pc = 0x200 + 2 ∧ checkFetch 0xFFE = none ∧
      (State.reset.setPc 0x1000).pc = 0xFFE + 2 ∧ State.reset.status = .running ∧ (0x301 : Addr12).toNat % 2 = 1 ∧
      (0x1FE : Addr12).toNat < 0x200 := by decide

/-- A call, a nested call and its return, then the return: the pairing law's hypotheses over a run of two steps. The
subroutine at 0x300 calls 0x302, which returns. -/
def nested : State :=
  (State.reset.setPc 0x202).setMem
    (Memory.placeWord (Memory.placeWord [] 0x300 0x2304) 0x304 0x00EE)

theorem witness_O24 :
    ∃ t t1 t2, nested.sp.toNat < 16 ∧ exec (.call 0x300) nested = .next t ∧
      applyOp .step t = .next t1 ∧ applyOp .step t1 = .next t2 ∧
      RunsWhile (fun r => nested.sp.toNat < r.sp.toNat) t t2 ∧ t2.sp.toNat = nested.sp.toNat + 1 := by
  refine ⟨_, _, _, by decide, rfl, rfl, rfl, ?_, by decide⟩
  exact ((RunsWhile.refl _).op .step (by decide) rfl (by decide)).op .step (by decide) rfl (by decide)

/-- The least and the greatest number of frames before the call, returning at once. -/
theorem witness_O24_edges :
    (∃ t, exec (.call 0x300) State.reset = .next t ∧ RunsWhile (fun r => 0 < r.sp.toNat) t t ∧ t.sp.toNat = 1) ∧
    ∃ t, exec (.call 0x300) (State.reset.setSp 15) = .next t ∧ RunsWhile (fun r => 15 < r.sp.toNat) t t ∧
      t.sp.toNat = 16 :=
  ⟨⟨_, rfl, .refl _, by decide⟩, ⟨_, rfl, .refl _, by decide⟩⟩

/-- A state with the invariant: a digit in `V[0]`, one frame on the stack, `STATUS` halted on an address fault. -/
def sample : State :=
  (((regs [(0, 15)]).setSp 1).setStackSlot 1 0x202).setStatus (.halted (.addressFault 0x1000))

theorem sample_inv : sample.Inv where
  memWf := rfl
  lowMem := fun _ _ => rfl
  spLe := by decide
  frames := by
    intro k w h1 h2 h
    have : k = 1 := by
      have : sample.sp.toNat = 1 := rfl
      omega
    subst this
    have : w = 0x202 := (Option.some.inj (h.symm.trans (show sample.stackSlot 1 = some 0x202 from rfl)))
    subst this
    decide
  pcLe := by decide
  accRange := by
    show (0 : Rat) ≤ 0 ∧ (0 : Rat) < 1 / 60
    norm_num
  reason := by
    intro r h
    have : r = .addressFault 0x1000 := (Status.halted.inj (h.symm.trans rfl))
    subst this
    show 0x1000 ≤ 0x1000E
    decide

theorem witness_O34 : sample.Inv ∧ (sample.getV 0).toNat ≤ 15 := ⟨sample_inv, by decide⟩

/-- The last address a sprite of 15 rows fits at and the first it does not; no row at all, anywhere. -/
theorem witness_O37_O38 :
    (State.reset.setI 0xFF1).i.toNat + (15 : Nib).toNat ≤ 0x1000 ∧
      0x1000 < (State.reset.setI 0xFF2).i.toNat + (15 : Nib).toNat ∧
      0x1000 < (State.reset.setI 0x1000).i.toNat + (1 : Nib).toNat ∧
      0x1000 < (State.reset.setI 0xFFFF).i.toNat + (1 : Nib).toNat ∧ (1 : Nib) ≠ 0 ∧ (15 : Nib) ≠ 0 ∧
      (0 : Nib) ≠ 15 ∧ (14 : Nib) ≠ 15 := by decide

/-- A selector with a high nibble. -/
theorem witness_O39 : (15 : Nib).toNat = ((regs [(0, 0xFF)]).getV 0).toNat % 16 := by decide

/-- A negative delta, one just below the threshold, and one that reaches it exactly. -/
theorem witness_O42 :
    (-1 : Rat) < 0 ∧ (0 ≤ (1 / 120 : Rat) ∧ State.reset.acc + 1 / 120 < 1 / 60) ∧
      (0 ≤ (1 / 60 : Rat) ∧ 1 / 60 ≤ State.reset.acc + 1 / 60) := by
  norm_num [State.reset]

theorem witness_O43 :
    ((-1 : Int) < 0 ∧ (15 : Int) < 16) ∧ ¬ (true = true ∧ State.reset.status = .waiting) ∧
      ¬ (false = true ∧ (State.reset.setStatus .waiting).status = .waiting) ∧
      (State.reset.setStatus .waiting).status = .waiting := by decide

/-- Both ends of the range a store is legal in, and the addresses next to them. -/
theorem witness_O44 :
    (0x200 ≤ (State.reset.setI 0x200).i.toNat ∧ (State.reset.setI 0x200).i.toNat + 2 ≤ 0xFFF) ∧
      (0x200 ≤ (State.reset.setI 0xFFD).i.toNat ∧ (State.reset.setI 0xFFD).i.toNat + 2 ≤ 0xFFF) ∧
      (State.reset.setI 0x1FF).i.toNat < 0x200 ∧ 0xFFF < (State.reset.setI 0xFFE).i.toNat + 2 := by decide

theorem witness_O45_O46 :
    (0x200 ≤ (State.reset.setI 0x200).i.toNat ∧ (State.reset.setI 0x200).i.toNat + (0 : Nib).toNat ≤ 0xFFF) ∧
      (0x200 ≤ (State.reset.setI 0xFF0).i.toNat ∧ (State.reset.setI 0xFF0).i.toNat + (15 : Nib).toNat ≤ 0xFFF) ∧
      (State.reset.setI 0x1FF).i.toNat < 0x200 ∧ 0xFFF < (State.reset.setI 0xFF1).i.toNat + (15 : Nib).toNat ∧
      0xFFF < (State.reset.setI 0x1000).i.toNat + (0 : Nib).toNat := by decide

/-- After the dump the registers are overwritten; `I` and the stored bytes are as the dump left them. -/
theorem witness_O47 :
    let s := (regs [(0, 0x11), (1, 0x22)]).setI 0xFFE
    ∃ t u : State, 0x200 ≤ s.i.toNat ∧ s.i.toNat + (1 : Nib).toNat ≤ 0xFFF ∧ exec (.ldMem 1) s = .next t ∧ u.i = t.i ∧
      (∀ a, s.i.toNat ≤ a → a ≤ s.i.toNat + (1 : Nib).toNat → Memory.read u.mem a = Memory.read t.mem a) ∧
      u.getV 0 ≠ s.getV 0 := by
  intro s
  let t := s.setMem (Memory.writeBytes s.mem s.i.toNat (s.regsUpTo 1))
  exact ⟨t, t.setV 0 0, by decide, by decide, rfl, rfl, fun _ _ _ => rfl, by decide⟩

theorem witness_O48 :
    let s := (regs [(14, 0x11), (15, 0x22)]).setI 0xFF0
    ∃ t, 0x200 ≤ s.i.toNat ∧ s.i.toNat + (15 : Nib).toNat ≤ 0xFFF ∧ exec (.ldMem 15) s = .next t ∧
      (14 : Nib).toNat < (15 : Nib).toNat ∧ (0xFFE : Word).toNat = s.i.toNat + (14 : Nib).toNat := by
  exact ⟨_, by decide, by decide, rfl, by decide, by decide⟩

theorem witness_O49 :
    3584 < (List.replicate 3585 (0 : Byte)).length ∧ (List.replicate 3584 (0 : Byte)).length ≤ 3584 := by
  rw [List.length_replicate, List.length_replicate]
  decide

/-- The invariant at a state whose step has a next state, and operations of every kind at it. -/
theorem witness_O53_O54_O55 :
    sample.Inv ∧ (∃ t, step sample = .next t) ∧ (∃ t, applyOp .reset sample = .next t) ∧
      (∃ t, applyOp (.load [0x12, 0x00]) sample = .next t) ∧ (∃ t, applyOp (.setKey 3 true) sample = .next t) ∧
      ∃ t, applyOp (.advanceTimers 1) sample = .next t :=
  ⟨sample_inv, ⟨_, rfl⟩, ⟨_, rfl⟩, ⟨_, rfl⟩, ⟨_, rfl⟩, ⟨_, rfl⟩⟩

/-- Power-on, and a program loaded and run for one step. -/
theorem witness_O56 :
    Reachable State.reset ∧ ∃ s t, applyOp (.load [0x23, 0x00]) State.reset = .next s ∧ applyOp .step s = .next t ∧
      t.sp = 1 ∧ Reachable t := by
  refine ⟨.powerOn, _, _, rfl, rfl, by decide, ?_⟩
  exact (Reachable.powerOn.op (.load [0x23, 0x00]) rfl).op .step rfl

/-- Two states that differ in a key and a timer, and an instruction that looks at neither. -/
theorem witness_O57 :
    readsEnvironment (.call 0x300) = false ∧
      AlikeButEnvironment State.reset ((State.reset.setKeyBit 3 true).setDt 9) ∧
      ∃ t, exec (.call 0x300) State.reset = .next t := by
  refine ⟨rfl, fun f hf => ?_, ⟨_, rfl⟩⟩
  cases f <;> simp_all [Field.same, State.setKeyBit]

end Sys2Proof.Machine.Tests
end

section
/-!
PROOFS. The scope family (00_scope.md): the sixteen families of words of R15.
-/

namespace Sys2Proof.Machine

/-- Settles O5. Every word is a literal, so the search of the opcode map (R98) and the field extraction (R91) are
evaluated. -/
theorem sampleWordsDecode : Obligations.SampleWordsDecode := by
  unfold Obligations.SampleWordsDecode
  decide

end Sys2Proof.Machine
end

section
/-!
PROOFS. Rules every proof about the state uses: what a checked effect answers, and what an instruction does to the
registers and to the flag (10_state.md R23).
-/

namespace Sys2Proof.Machine

variable {s t u : State}

/-- A checked effect that has a next state took the fault of its check, or passed the check and is the effect's state. -/
theorem State.unlessFault_next {check : Option HaltReason} (h : s.unlessFault check (.next u) = .next t) :
    (∃ f, check = some f ∧ t = s.raise f) ∨ (check = none ∧ t = u) := by
  rcases State.unlessFault_eq s check (.next u) with ⟨f, hf, e⟩ | ⟨hn, e⟩ <;> cases e.symm.trans h
  · exact .inl ⟨f, hf, rfl⟩
  · exact .inr ⟨hn, rfl⟩

@[simp] theorem State.getV_setStackSlot (k : Nat) (w : Word) (r : Nib) : (s.setStackSlot k w).getV r = s.getV r := by
  rw [State.setStackSlot_eq]; rfl

/-- The flag byte is 0 or 1 (10_state.md R23). -/
theorem flagByte_eq_zero_or_one (b : Bool) : flagByte b = 0 ∨ flagByte b = 1 := by
  cases b
  · exact .inl rfl
  · exact .inr rfl

/-- VF holds a flag after a write to it. -/
theorem State.getV_setFlag_flag (b : Bool) : (s.setFlag b).getV 15 = 0 ∨ (s.setFlag b).getV 15 = 1 := by
  rw [State.getV_setFlag, if_pos rfl]
  exact flagByte_eq_zero_or_one b

/-! ### The registers an instruction leaves alone -/

theorem SameRegsExcept.of_v_eq {regs : List Nib} (h : t.v = s.v) : SameRegsExcept regs s t :=
  fun r _ => State.getV_congr h r

theorem SameRegsExcept.setResultAndFlag (x : Nib) (b : Byte) (f : Bool) :
    SameRegsExcept [x, 15] s (s.setResultAndFlag x b f) := by
  intro r hr
  obtain ⟨hx, h15⟩ : r ≠ x ∧ r ≠ 15 := by simpa using hr
  rw [State.getV_setResultAndFlag, if_neg h15, if_neg hx]

/-- `Fx65` leaves the registers above `x` alone (46_memory_ops.md R243). -/
theorem SameRegsExcept.loadRegs (x : Nib) (base : Nat) :
    SameRegsExcept (writtenRegs (.ldVxMem x)) s (s.loadRegs base (x.toNat + 1)) := by
  intro r hr
  have hx : ¬ r.toNat < x.toNat + 1 := fun hlt =>
    hr (List.mem_map.mpr ⟨r.toNat, List.mem_range.mpr hlt, by simp⟩)
  rw [State.getV_loadRegs s base (x.toNat + 1) x.isLt, if_neg hx]

/-- An instruction writes its destination registers, VF where it defines a flag, and no others (10_state.md R23). -/
theorem exec_sameRegsExcept {i : Instr} (h : exec i s = .next t) : SameRegsExcept (writtenRegs i) s t := by
  have checked : ∀ {regs : List Nib} {check : Option HaltReason} {u : State},
      s.unlessFault check (.next u) = .next t → SameRegsExcept regs s u → SameRegsExcept regs s t := by
    intro regs check u h hu
    rcases State.unlessFault_next h with ⟨f, -, rfl⟩ | ⟨-, rfl⟩
    · exact .of_v_eq rfl
    · exact hu
  cases i
  case ret =>
    rcases execRet_cases s with ⟨-, e⟩ | ⟨-, -, w, -, e⟩ | ⟨-, e⟩ <;> cases e.symm.trans h <;> exact .of_v_eq rfl
  case call nnn =>
    rcases execCall_cases nnn s with ⟨-, e⟩ | ⟨-, e⟩ | ⟨-, e⟩ <;> cases e.symm.trans h
    · exact .of_v_eq rfl
    · exact fun r _ => State.getV_setStackSlot _ _ r
  case drw x y n => exact checked h (SameRegsExcept.setV (s.setFb _) 15 _)
  case ldB | ldMem => all_goals exact checked h (.of_v_eq rfl)
  case ldVxMem x => exact checked h (.loadRegs x _)
  case addReg x _ | sub x _ | shr x _ | subn x _ | shl x _ =>
    all_goals cases h; exact .setResultAndFlag x _ _
  case ldImm x _ | addImm x _ | ldReg x _ | orReg x _ | andReg x _ | xorReg x _ | rnd x _ | ldVxDt x =>
    all_goals cases h; exact SameRegsExcept.setV s x _
  case seImm | sneImm | seReg | sneReg | skp | sknp =>
    all_goals cases h; exact .of_v_eq (State.skipIf_v s _)
  all_goals
    cases h
    exact .of_v_eq rfl

end Sys2Proof.Machine
end

section
/-!
PROOFS. The invariant, one rule per state operation, then every instruction, every step and every boundary operation.
-/

namespace Sys2Proof.Machine

variable {s t : State}

/-! ### Return addresses -/

/-- What the invariant says of a frame: even and in 0x202..0x1000, the address after a fetched instruction
(41_control_flow.md R142). -/
def IsReturnAddress (w : Word) : Prop := w.toNat % 2 = 0 ∧ 0x202 ≤ w.toNat ∧ w.toNat ≤ 0x1000

theorem State.Inv.isReturnAddress (hs : s.Inv) {k : Nat} {w : Word} (h1 : 1 ≤ k) (hk : k ≤ s.sp.toNat)
    (hw : s.stackSlot k = some w) : IsReturnAddress w := hs.frames k w h1 hk hw

/-- After a legal fetch the pc is a return address. -/
theorem State.isReturnAddress_advancePc (h : checkFetch s.pc = none) : IsReturnAddress s.advancePc.pc := by
  have hpc := s.advancePc_of_fetchable h
  have hf := (checkFetch_eq_none s.pc).mp h
  unfold IsReturnAddress
  omega

/-! ### The legality checks raise legal reasons (60_exceptions.md R264) -/

theorem checkFetch_legal {a : Word} {f : HaltReason} (h : checkFetch a = some f) : f.legal := by
  rw [checkFetch_eq_some a f h]
  show a.toNat ≤ 0x1000E
  omega

theorem checkRead_legal {a : Word} {n : Nat} {f : HaltReason} (h : checkRead a.toNat n = some f) : f.legal := by
  obtain ⟨-, -, rfl⟩ := (checkRead_eq_some _ _ _).mp h
  show max a.toNat 0x1000 ≤ 0x1000E
  omega

theorem checkWrite_legal {a : Word} {n : Nat} {f : HaltReason} (h : checkWrite a.toNat n = some f) : f.legal := by
  obtain ⟨-, ⟨-, rfl⟩ | ⟨-, -, rfl⟩⟩ := (checkWrite_eq_some _ _ _).mp h
  · show a.toNat ≤ 0x1000E
    omega
  · show max a.toNat 0x1000 ≤ 0x1000E
    omega

/-! ### One rule per state operation -/

/-- The invariant speaks of six pieces of state only. -/
theorem State.Inv.congr (hs : s.Inv) (hmem : t.mem = s.mem) (hsp : t.sp = s.sp) (hstack : t.stack = s.stack)
    (hpc : t.pc = s.pc) (hacc : t.acc = s.acc) (hstatus : t.status = s.status) : t.Inv where
  memWf := hmem ▸ hs.memWf
  lowMem := hmem ▸ hs.lowMem
  spLe := hsp ▸ hs.spLe
  frames k w h1 hk hw := hs.frames k w h1 (hsp ▸ hk) (State.stackSlot_congr hstack k ▸ hw)
  pcLe := hpc ▸ hs.pcLe
  accRange := hacc ▸ hs.accRange
  reason := hstatus ▸ hs.reason

theorem State.Inv.setPc (hs : s.Inv) {a : Word} (ha : a.toNat ≤ 0x10FE) : (s.setPc a).Inv :=
  { hs with pcLe := ha }

theorem State.Inv.setStatus (hs : s.Inv) {u : Status} (hu : ∀ r, u = .halted r → r.legal) : (s.setStatus u).Inv :=
  { hs with reason := hu }

theorem State.Inv.raise (hs : s.Inv) {f : HaltReason} (hf : f.legal) : (s.raise f).Inv :=
  hs.setStatus fun _ e => Status.halted.inj e ▸ hf

theorem State.Inv.setAcc (hs : s.Inv) {q : Rat} (hq : 0 ≤ q ∧ q < 1 / 60) : (s.setAcc q).Inv :=
  { hs with accRange := hq }

/-- A lower stack pointer drops frames and adds none. -/
theorem State.Inv.setSp (hs : s.Inv) {n : Byte} (hn : n.toNat ≤ s.sp.toNat) : (s.setSp n).Inv :=
  { hs with
    spLe := hn.trans hs.spLe
    frames := fun k w h1 hk hw => hs.frames k w h1 (hk.trans hn) hw }

/-- Bytes stored from 0x200 up and inside memory keep it canonical and its low region as it was (20_memory.md R60, R62). -/
theorem State.Inv.writeBytes (hs : s.Inv) {base : Nat} {bs : List Byte} (hlo : 0x200 ≤ base)
    (hhi : base + bs.length ≤ 0x1000) : (s.setMem (Memory.writeBytes s.mem base bs)).Inv :=
  { hs with
    memWf := Memory.wf_writeBytes bs s.mem base hhi hs.memWf
    lowMem := fun a ha =>
      (Memory.read_writeBytes_outside s.mem base a bs (by omega)).trans (hs.lowMem a ha) }

/-- The pushed address is the new top frame; the frames below keep theirs (41_control_flow.md R142). -/
theorem State.Inv.push (hs : s.Inv) (hlt : s.sp.toNat < 16) {w : Word} (hw : IsReturnAddress w) :
    ((s.setSp (s.sp + 1)).setStackSlot (s.sp.toNat + 1) w).Inv := by
  have hsp : (s.sp + 1).toNat = s.sp.toNat + 1 := by bv_omega
  have hframes : ∀ k v, 1 ≤ k → k ≤ s.sp.toNat + 1 →
      ((s.setSp (s.sp + 1)).setStackSlot (s.sp.toNat + 1) w).stackSlot k = some v → IsReturnAddress v := by
    intro k v h1 hk hv
    rw [State.stackSlot_setStackSlot _ _ _ _ ⟨by omega, by omega⟩] at hv
    split at hv
    · cases hv; exact hw
    · exact hs.isReturnAddress h1 (by omega) hv
  rw [State.setStackSlot_eq] at hframes ⊢
  exact { hs with
    spLe := by rw [State.setStack_sp, State.setSp_sp, hsp]; omega
    frames := fun k v h1 hk => hframes k v h1 (hsp ▸ hk) }

/-- A skip moves the pc by 2 at most. -/
theorem State.Inv.skipIf (hs : s.Inv) (hpc : IsReturnAddress s.pc) (c : Bool) : (s.skipIf c).Inv := by
  obtain ⟨-, -, hle⟩ := hpc
  rcases State.skipIf_cases s c with ⟨-, e⟩ | ⟨-, e⟩ <;> rw [e]
  · exact hs.setPc (by bv_omega)
  · exact hs

/-- A checked effect keeps the invariant when the check raises legal reasons and the effect keeps it. -/
theorem State.Inv.unlessFault (hs : s.Inv) {check : Option HaltReason} {u : State}
    (h : s.unlessFault check (.next u) = .next t) (hf : ∀ f, check = some f → f.legal) (hu : check = none → u.Inv) :
    t.Inv := by
  rcases State.unlessFault_next h with ⟨f, hc, rfl⟩ | ⟨hc, rfl⟩
  · exact hs.raise (hf f hc)
  · exact hu hc

/-- The two stores of the instruction set: `n` bytes at `I`, after the check of their range (20_memory.md R64). -/
theorem State.Inv.checkedStore (hs : s.Inv) {bs : List Byte} {n : Nat} (hn : bs.length = n) (hpos : 0 < n)
    (h : s.unlessFault (checkWrite s.i.toNat n) (.next (s.setMem (Memory.writeBytes s.mem s.i.toNat bs))) = .next t) :
    t.Inv := by
  refine hs.unlessFault h (fun _ => checkWrite_legal) fun hc => ?_
  have hrange := (checkWrite_eq_none _ _).mp hc
  exact hs.writeBytes (by omega) (by omega)

/-! ### Instructions and steps -/

/-- The targets of jumps and calls lie below 0x1000. -/
theorem zextAddr_le (nnn : Addr12) : (zextAddr nnn).toNat ≤ 0xFFF := by
  unfold zextAddr
  bv_omega

/-- 0x10FE is the largest value of `nnn + V[0]` (41_control_flow.md R143). -/
theorem zextAddr_add_zextByte_le (nnn : Addr12) (b : Byte) : (zextAddr nnn + zextByte b).toNat ≤ 0x10FE := by
  unfold zextAddr zextByte
  bv_omega

/-- Every instruction keeps the invariant, run with the pc a fetch leaves. -/
theorem exec_keeps_inv {i : Instr} (hs : s.Inv) (hpc : IsReturnAddress s.pc) (h : exec i s = .next t) : t.Inv := by
  cases i
  case ret =>
    rcases execRet_cases s with ⟨-, e⟩ | ⟨h1, -, w, hw, e⟩ | ⟨-, e⟩ <;> cases e.symm.trans h
    · exact hs.raise trivial
    · obtain ⟨-, -, hle⟩ := hs.isReturnAddress h1 le_rfl hw
      exact (hs.setPc (by omega)).setSp (by rw [State.setPc_sp]; bv_omega)
  case call nnn =>
    have hnnn := zextAddr_le nnn
    rcases execCall_cases nnn s with ⟨-, e⟩ | ⟨hlt, e⟩ | ⟨-, e⟩ <;> cases e.symm.trans h
    · exact hs.raise trivial
    · exact (hs.push hlt hpc).setPc (by omega)
  case jp nnn =>
    have hnnn := zextAddr_le nnn
    cases h
    exact hs.setPc (by omega)
  case jpV0 nnn =>
    cases h
    exact hs.setPc (zextAddr_add_zextByte_le nnn _)
  case seImm | sneImm | seReg | sneReg | skp | sknp =>
    all_goals cases h; exact hs.skipIf hpc _
  case ldVxK x =>
    cases h
    exact State.Inv.setStatus (s := s.setWx x) (hs.congr rfl rfl rfl rfl rfl rfl) nofun
  case drw => exact hs.unlessFault h (fun _ => checkRead_legal) fun _ => hs.congr rfl rfl rfl rfl rfl rfl
  case ldB => exact hs.checkedStore (length_bcdDigits _) (by omega) h
  case ldMem x => exact hs.checkedStore (s.length_regsUpTo x) (by omega) h
  case ldVxMem =>
    refine hs.unlessFault h (fun _ => checkRead_legal) fun _ => ?_
    rw [State.loadRegs_eq]
    exact hs.congr rfl rfl rfl rfl rfl rfl
  all_goals
    cases h
    exact hs.congr rfl rfl rfl rfl rfl rfl

/-- By the phases of the cycle (40_step_cycle.md R126): a gated step changes nothing, a fault records a legal reason, and
an instruction runs with the pc its fetch left. -/
theorem step_keeps_inv (hs : s.Inv) (h : step s = .next t) : t.Inv := by
  rcases step_cases s with ⟨-, e⟩ | ⟨-, ⟨f, hf, e⟩ | ⟨hf, hcase⟩⟩
  · cases e.symm.trans h
    exact hs
  · cases e.symm.trans h
    exact hs.raise (checkFetch_legal hf)
  · have hpc := s.isReturnAddress_advancePc hf
    have hadv : s.advancePc.Inv := by
      obtain ⟨-, -, hle⟩ := hpc
      exact hs.setPc (hle.trans (by decide))
    rcases hcase with ⟨hd, e⟩ | ⟨i, -, e⟩
    · cases e.symm.trans h
      exact hadv.raise hd
    · exact exec_keeps_inv hadv hpc (e.symm.trans h)

/-! ### Boundary operations and reachable states -/

theorem State.reset_inv : State.reset.Inv where
  memWf := State.reset_mem_wf
  lowMem _ _ := rfl
  spLe := by decide
  frames k w h1 hk _ := by
    have : k ≤ 0 := hk
    omega
  pcLe := by decide
  accRange := by
    show (0 : Rat) ≤ 0 ∧ (0 : Rat) < 1 / 60
    norm_num
  reason := nofun

/-- `Reset` reseeds the font and gives every other piece of the invariant its power-on value
(70_reset_and_hazards.md R310). -/
theorem State.Inv.doReset (hs : s.Inv) : s.doReset.Inv :=
  { State.reset_inv with
    memWf := Memory.wf_reseedFont s.mem hs.memWf
    lowMem := fun a ha => by
      show Memory.read (Memory.reseedFont s.mem) a = Memory.powerOn a
      rw [Memory.read_reseedFont]
      split
      · rfl
      · exact hs.lowMem a ha }

theorem State.Inv.load (hs : s.Inv) (bytes : List Byte) : (s.load bytes).2.Inv := by
  rcases State.load_cases s bytes with ⟨-, e⟩ | ⟨hlen, e⟩ <;> rw [e]
  · exact hs
  · exact hs.writeBytes le_rfl (by unfold maxImage at hlen; omega)

/-- The accumulator stays below 1/60: a tick clears it (10_state.md R34). -/
theorem State.Inv.advanceTimers (hs : s.Inv) (delta : Rat) : (s.advanceTimers delta).Inv := by
  rcases State.advanceTimers_cases s delta with ⟨-, e⟩ | ⟨-, -, e⟩ | ⟨hpos, hlt, e⟩ <;> rw [e]
  · exact hs
  · exact State.Inv.setAcc (s := s.tick) (hs.congr rfl rfl rfl rfl rfl rfl) (by norm_num)
  · exact hs.setAcc ⟨add_nonneg hs.accRange.1 hpos, hlt⟩

theorem State.Inv.setKey (hs : s.Inv) (id : Int) (pressed : Bool) : (s.setKey id pressed).Inv := by
  rcases State.setKey_cases s id pressed with ⟨-, e⟩ | ⟨-, -, -, e⟩ | ⟨-, -, -, -, e⟩ <;> rw [e]
  · exact hs
  · exact hs.congr rfl rfl rfl rfl rfl rfl
  · exact (hs.setStatus (u := .running) nofun).congr rfl rfl rfl rfl rfl rfl

theorem applyOp_keeps_inv (op : Op) (hs : s.Inv) (h : applyOp op s = .next t) : t.Inv := by
  cases op with
  | step => exact step_keeps_inv hs h
  | load bytes => cases h; exact hs.load bytes
  | reset => cases h; exact hs.doReset
  | advanceTimers delta => cases h; exact hs.advanceTimers delta
  | setKey id pressed => cases h; exact hs.setKey id pressed
  | framebuffer | shouldPlayTone => all_goals cases h; exact hs

theorem Reachable.inv (h : Reachable s) : s.Inv :=
  h.induct State.reset_inv fun op _ _ => applyOp_keeps_inv op

end Sys2Proof.Machine
end

section
/-!
PROOFS. The state family (10_state.md): the invariant, the flag, the bounds of the reachable states, the missing stack slots.
-/

namespace Sys2Proof.Machine

/-- Settles O53: the invariant is kept phase by phase. -/
theorem stepKeepsInv : Obligations.StepKeepsInv := by
  unfold Obligations.StepKeepsInv
  exact fun _ _ => step_keeps_inv

/-- Settles O15: the five ALU instructions and a draw that passes its check write VF last, and the frame of the registers
covers the rest. -/
theorem flagWriters : Obligations.FlagWriters := by
  unfold Obligations.FlagWriters
  intro i s t h
  refine ⟨?alu, ?draw, exec_sameRegsExcept h 15⟩
  case alu =>
    rintro ⟨x, y, rfl | rfl | rfl | rfl | rfl⟩ <;> cases h <;> exact State.getV_setFlag_flag _
  case draw =>
    rintro ⟨x, y, n, rfl⟩
    rcases State.unlessFault_next h with ⟨f, -, rfl⟩ | ⟨-, rfl⟩
    · exact .inl ⟨f, rfl⟩
    · exact .inr (State.getV_setFlag_flag _)

/-- Settles O56, from the invariant of the reachable states; the font is what power-on leaves below 0x50. -/
theorem reachableBounds : Obligations.ReachableBounds := by
  unfold Obligations.ReachableBounds
  intro s h
  refine ⟨h.inv.spLe, h.inv.pcLe, fun k hk => ?_⟩
  rw [h.inv.lowMem k (by omega), Memory.powerOn_font k hk, Vector.getElem?_eq_getElem hk]

/-- Settles O21: above 16 the other answers of `00EE` and `2nnn` are excluded. -/
theorem noSlotNoStep : Obligations.NoSlotNoStep := by
  unfold Obligations.NoSlotNoStep
  intro nnn s hsp
  constructor
  · rcases execRet_cases s with ⟨h0, -⟩ | ⟨-, h16, -⟩ | ⟨-, e⟩
    · omega
    · omega
    · exact e
  · rcases execCall_cases nnn s with ⟨h16, -⟩ | ⟨h16, -⟩ | ⟨-, e⟩
    · omega
    · omega
    · exact e

end Sys2Proof.Machine
end

section
/-!
PROOFS. Rules of memory: the word a fetch assembles, the fault it takes, what an instruction, a step and `Load` leave of
each byte (20_memory.md R60 to R63), and what `Fx55` leaves where it stores (46_memory_ops.md R242).
-/

namespace Sys2Proof.Machine

variable {s t : State}

/-! ### Fetching -/

/-- Big-endian assembly, as a number (20_memory.md R66). -/
theorem toNat_wordOfBytes (hi lo : Byte) : (wordOfBytes hi lo).toNat = hi.toNat * 256 + lo.toNat := by
  calc (wordOfBytes hi lo).toNat
    _ = hi.toNat <<< 8 ||| lo.toNat := BitVec.toNat_append hi lo
    _ = hi.toNat <<< 8 + lo.toNat := (Nat.shiftLeft_add_eq_or_of_lt lo.isLt hi.toNat).symm
    _ = hi.toNat * 256 + lo.toNat := by rw [Nat.shiftLeft_eq]

theorem SameExcept.raise (f : HaltReason) : SameExcept [.status] s (s.raise f) := by
  intro g hg
  cases g
  case status => exact absurd (List.mem_singleton.mpr rfl) hg
  case mem => exact fun _ => rfl
  all_goals rfl

/-- A step whose fetch is illegal takes the fetch's fault from the state as it was, pc included (40_step_cycle.md R123). -/
theorem step_of_illegal_fetch (hrun : s.status = .running)
    (hpc : s.pc.toNat % 2 = 1 ∨ s.pc.toNat < 0x200 ∨ 0xFFE < s.pc.toNat) :
    step s = .next (s.raise (.addressFault s.pc.toNat)) := by
  rcases step_cases s with ⟨hgate, -⟩ | ⟨-, ⟨f, hf, e⟩ | ⟨hok, -⟩⟩
  · exact absurd hrun hgate
  · rw [e, checkFetch_eq_some s.pc f hf]
  · have := (checkFetch_eq_none s.pc).mp hok
    omega

/-! ### Bytes kept -/

/-- A checked store of `n` bytes at `I` keeps every byte outside its range, and its range lies in 0x200..0xFFF
(20_memory.md R62, R64). -/
theorem State.read_checkedStore {bs : List Byte} {n : Nat} (hn : bs.length = n)
    (h : s.unlessFault (checkWrite s.i.toNat n) (.next (s.setMem (Memory.writeBytes s.mem s.i.toNat bs))) = .next t)
    (a : Nat) :
    Memory.read t.mem a = Memory.read s.mem a ∨
      ((s.i.toNat ≤ a ∧ a < s.i.toNat + n) ∧ 0x200 ≤ a ∧ a ≤ 0xFFF) := by
  rcases State.unlessFault_next h with ⟨f, -, rfl⟩ | ⟨hc, rfl⟩
  · exact .inl rfl
  · have hrange := (checkWrite_eq_none _ _).mp hc
    by_cases ha : s.i.toNat ≤ a ∧ a < s.i.toNat + n
    · exact .inr ⟨ha, by omega⟩
    · exact .inl (Memory.read_writeBytes_outside _ _ _ _ (by omega))

/-- What an instruction can do to a byte of memory: keep it, or store to it, and then it lies in 0x200..0xFFF. -/
theorem exec_read_cases {i : Instr} (h : exec i s = .next t) (a : Nat) :
    Memory.read t.mem a = Memory.read s.mem a ∨ (StoresAt i s a ∧ 0x200 ≤ a ∧ a ≤ 0xFFF) := by
  have same (e : t.mem = s.mem) :
      Memory.read t.mem a = Memory.read s.mem a ∨ (StoresAt i s a ∧ 0x200 ≤ a ∧ a ≤ 0xFFF) := .inl (by rw [e])
  cases i
  case ldB => exact State.read_checkedStore (length_bcdDigits _) h a
  case ldMem x => exact State.read_checkedStore (s.length_regsUpTo x) h a
  case ret =>
    rcases execRet_cases s with ⟨-, e⟩ | ⟨-, -, w, -, e⟩ | ⟨-, e⟩ <;> cases e.symm.trans h <;> exact same rfl
  case call nnn =>
    rcases execCall_cases nnn s with ⟨-, e⟩ | ⟨-, e⟩ | ⟨-, e⟩ <;> cases e.symm.trans h
    · exact same rfl
    · exact same (by rw [State.setStackSlot_eq]; rfl)
  case drw => rcases State.unlessFault_next h with ⟨f, -, rfl⟩ | ⟨-, rfl⟩ <;> exact same rfl
  case ldVxMem =>
    rcases State.unlessFault_next h with ⟨f, -, rfl⟩ | ⟨-, rfl⟩
    · exact same rfl
    · exact same (by rw [State.loadRegs_eq])
  case seImm | sneImm | seReg | sneReg | skp | sknp =>
    all_goals cases h; exact same (State.skipIf_mem s _)
  all_goals
    cases h
    exact same rfl

/-- The font and the reserved region are read-only to every instruction (20_memory.md R60). -/
theorem exec_keeps_low {i : Instr} (h : exec i s = .next t) {a : Nat} (ha : a < 0x200) :
    Memory.read t.mem a = Memory.read s.mem a := by
  rcases exec_read_cases h a with e | ⟨-, hlo, -⟩
  · exact e
  · omega

/-- By the phases of the cycle: only the execution of an instruction can write memory (40_step_cycle.md R126). -/
theorem step_keeps_low (h : step s = .next t) {a : Nat} (ha : a < 0x200) :
    Memory.read t.mem a = Memory.read s.mem a := by
  rcases step_cases s with ⟨-, e⟩ | ⟨-, ⟨f, -, e⟩ | ⟨-, ⟨-, e⟩ | ⟨i, -, e⟩⟩⟩
  on_goal 4 => exact exec_keeps_low (e.symm.trans h) ha
  all_goals
    cases e.symm.trans h
    rfl

theorem State.load_keeps_low (bytes : List Byte) {a : Nat} (ha : a < 0x200) :
    Memory.read (s.load bytes).2.mem a = Memory.read s.mem a := by
  rcases State.load_cases s bytes with ⟨-, e⟩ | ⟨-, e⟩ <;> rw [e]
  exact Memory.read_writeBytes_outside s.mem 0x200 a bytes (.inl ha)

/-! ### Registers stored -/

/-- `Fx55` with its whole range in 0x200..0xFFF stores `V[0]` to `V[x]` at `I` (46_memory_ops.md R242). -/
theorem exec_ldMem_of_legal {x : Nib} (hlo : 0x200 ≤ s.i.toNat) (hhi : s.i.toNat + x.toNat ≤ 0xFFF) :
    exec (.ldMem x) s = .next (s.setMem (Memory.writeBytes s.mem s.i.toNat (s.regsUpTo x))) := by
  have hc : checkWrite s.i.toNat (x.toNat + 1) = none := (checkWrite_eq_none _ _).mpr (.inr ⟨hlo, by omega⟩)
  show s.unlessFault (checkWrite s.i.toNat (x.toNat + 1)) _ = _
  rw [hc, State.unlessFault_none]

/-- The byte at `base + k` after `V[0]` to `V[x]` are stored from `base` on is `V[k]`. -/
theorem State.read_writeBytes_regsUpTo {x k : Nib} (hk : k.toNat ≤ x.toNat) (m : Memory) (base : Nat) :
    Memory.read (Memory.writeBytes m base (s.regsUpTo x)) (base + k.toNat) = s.getV k := by
  have hlen := s.length_regsUpTo x
  rw [Memory.read_writeBytes, dif_pos (by omega), State.getElem_regsUpTo, Nat.add_sub_cancel_left, BitVec.ofNat_toNat,
    BitVec.setWidth_eq]

end Sys2Proof.Machine
end

section
/-!
PROOFS. The memory family (20_memory.md): the read-only region below 0x200, the checked fetch, and its coherence with
stores.
-/

namespace Sys2Proof.Machine

/-- Settles O16: the stores of an instruction are checked to start at 0x200 or above, and `Load` starts at 0x200. -/
theorem lowMemoryReadOnly : Obligations.LowMemoryReadOnly := by
  unfold Obligations.LowMemoryReadOnly
  exact ⟨fun _ _ h _ ha => step_keeps_low h ha, fun _ bytes _ ha => State.load_keeps_low bytes ha⟩

/-- Settles O48: the two bytes fetched are entries `k` and `k + 1` of the registers stored. -/
theorem storedCodeIsFetched : Obligations.StoredCodeIsFetched := by
  unfold Obligations.StoredCodeIsFetched
  intro x k a s t hlo hhi h hk ha
  cases (exec_ldMem_of_legal hlo hhi).symm.trans h
  have hsucc : (k + 1).toNat = k.toNat + 1 := by bv_omega
  have hhigh := s.read_writeBytes_regsUpTo hk.le s.mem s.i.toNat
  have hlow := s.read_writeBytes_regsUpTo (k := k + 1) (hsucc.trans_le hk) s.mem s.i.toNat
  rw [hsucc, ← Nat.add_assoc] at hlow
  rw [Memory.fetchWord, State.setMem_mem, ha, hhigh, hlow]

/-- Settles O9: an illegal fetch raises before the pc moves, the legal addresses are those the check passes, and the
word is assembled high byte first. -/
theorem fetchCheckedAndBigEndian : Obligations.FetchCheckedAndBigEndian := by
  unfold Obligations.FetchCheckedAndBigEndian
  refine ⟨fun s hrun hpc => ?illegal, fun a heven hlo hhi => ?legal, fun m a => ?word⟩
  case illegal => exact ⟨_, step_of_illegal_fetch hrun hpc, s.raise_status _, .raise _⟩
  case legal => exact (checkFetch_eq_none a).mpr ⟨heven, hlo, hhi⟩
  case word => exact toNat_wordOfBytes _ _

end Sys2Proof.Machine
end

section
/-!
PROOFS. Rules of the encoding (30_encoding.md): the fields and formats as numbers, the search of the opcode map, and how
a row's mask, its operand fields and the encoder fit together.
-/

namespace Sys2Proof

/-! ### Fields and formats as numbers (R91 to R95) -/

/-- `op = w[15:12]`, the family (R91): the field no instruction keeps as an operand. -/
def fieldOp (w : Word) : Nib := w.extractLsb' 12 4

theorem toNat_fieldOp (w : Word) : (fieldOp w).toNat = w.toNat / 4096 := by
  rw [fieldOp, BitVec.extractLsb'_toNat, Nat.shiftRight_eq_div_pow]
  omega

theorem toNat_fieldX (w : Word) : (fieldX w).toNat = w.toNat / 256 % 16 := by
  rw [fieldX, BitVec.extractLsb'_toNat, Nat.shiftRight_eq_div_pow]

theorem toNat_fieldY (w : Word) : (fieldY w).toNat = w.toNat / 16 % 16 := by
  rw [fieldY, BitVec.extractLsb'_toNat, Nat.shiftRight_eq_div_pow]

theorem toNat_fieldN (w : Word) : (fieldN w).toNat = w.toNat % 16 := BitVec.extractLsb'_toNat 0 4 w

theorem toNat_fieldKK (w : Word) : (fieldKK w).toNat = w.toNat % 256 := BitVec.extractLsb'_toNat 0 8 w

theorem toNat_fieldNNN (w : Word) : (fieldNNN w).toNat = w.toNat % 4096 := BitVec.extractLsb'_toNat 0 12 w

/-- The width of the lower string is the place value of the higher one. -/
theorem toNat_append_eq {m k : Nat} (hi : BitVec m) (lo : BitVec k) :
    (hi ++ lo).toNat = hi.toNat * 2 ^ k + lo.toNat := by
  rw [BitVec.toNat_append, ← Nat.shiftLeft_add_eq_or_of_lt lo.isLt, Nat.shiftLeft_eq]

theorem toNat_formatNNN (op : Nib) (nnn : Addr12) : (formatNNN op nnn).toNat = op.toNat * 4096 + nnn.toNat :=
  toNat_append_eq op nnn

theorem toNat_formatXKK (op x : Nib) (kk : Byte) :
    (formatXKK op x kk).toNat = op.toNat * 4096 + x.toNat * 256 + kk.toNat := by
  have h := toNat_append_eq (op ++ x) kk
  rw [toNat_append_eq op x] at h
  exact h.trans (by omega)

theorem toNat_formatXYN (op x y n : Nib) :
    (formatXYN op x y n).toNat = op.toNat * 4096 + x.toNat * 256 + y.toNat * 16 + n.toNat := by
  have h := toNat_append_eq (op ++ x ++ y) n
  rw [toNat_append_eq (op ++ x) y, toNat_append_eq op x] at h
  exact h.trans (by omega)

/-! ### A format's fields, and a word from its fields -/

@[simp] theorem fieldOp_formatNNN (op : Nib) (nnn : Addr12) : fieldOp (formatNNN op nnn) = op := by
  apply BitVec.eq_of_toNat_eq
  rw [toNat_fieldOp, toNat_formatNNN]
  omega

@[simp] theorem fieldNNN_formatNNN (op : Nib) (nnn : Addr12) : fieldNNN (formatNNN op nnn) = nnn := by
  apply BitVec.eq_of_toNat_eq
  rw [toNat_fieldNNN, toNat_formatNNN]
  omega

@[simp] theorem fieldOp_formatXKK (op x : Nib) (kk : Byte) : fieldOp (formatXKK op x kk) = op := by
  apply BitVec.eq_of_toNat_eq
  rw [toNat_fieldOp, toNat_formatXKK]
  omega

@[simp] theorem fieldX_formatXKK (op x : Nib) (kk : Byte) : fieldX (formatXKK op x kk) = x := by
  apply BitVec.eq_of_toNat_eq
  rw [toNat_fieldX, toNat_formatXKK]
  omega

@[simp] theorem fieldKK_formatXKK (op x : Nib) (kk : Byte) : fieldKK (formatXKK op x kk) = kk := by
  apply BitVec.eq_of_toNat_eq
  rw [toNat_fieldKK, toNat_formatXKK]
  omega

@[simp] theorem fieldOp_formatXYN (op x y n : Nib) : fieldOp (formatXYN op x y n) = op := by
  apply BitVec.eq_of_toNat_eq
  rw [toNat_fieldOp, toNat_formatXYN]
  omega

@[simp] theorem fieldX_formatXYN (op x y n : Nib) : fieldX (formatXYN op x y n) = x := by
  apply BitVec.eq_of_toNat_eq
  rw [toNat_fieldX, toNat_formatXYN]
  omega

@[simp] theorem fieldY_formatXYN (op x y n : Nib) : fieldY (formatXYN op x y n) = y := by
  apply BitVec.eq_of_toNat_eq
  rw [toNat_fieldY, toNat_formatXYN]
  omega

@[simp] theorem fieldN_formatXYN (op x y n : Nib) : fieldN (formatXYN op x y n) = n := by
  apply BitVec.eq_of_toNat_eq
  rw [toNat_fieldN, toNat_formatXYN]
  omega

theorem formatNNN_fields (w : Word) : formatNNN (fieldOp w) (fieldNNN w) = w := by
  apply BitVec.eq_of_toNat_eq
  rw [toNat_formatNNN, toNat_fieldOp, toNat_fieldNNN]
  omega

theorem formatXKK_fields (w : Word) : formatXKK (fieldOp w) (fieldX w) (fieldKK w) = w := by
  apply BitVec.eq_of_toNat_eq
  rw [toNat_formatXKK, toNat_fieldOp, toNat_fieldX, toNat_fieldKK]
  omega

theorem formatXYN_fields (w : Word) : formatXYN (fieldOp w) (fieldX w) (fieldY w) (fieldN w) = w := by
  apply BitVec.eq_of_toNat_eq
  rw [toNat_formatXYN, toNat_fieldOp, toNat_fieldX, toNat_fieldY, toNat_fieldN]
  omega

theorem wordOfBytes_highByte_lowByte (w : Word) : wordOfBytes (highByte w) (lowByte w) = w := by
  apply BitVec.eq_of_toNat_eq
  rw [Machine.toNat_wordOfBytes, highByte, lowByte, BitVec.extractLsb'_toNat, BitVec.extractLsb'_toNat,
    Nat.shiftRight_eq_div_pow]
  omega

/-! ### What a mask of the opcode map compares (R98): the family, or the family and its sub-opcode -/

theorem and_family (w : Word) : w &&& 0xF000#16 = formatNNN (fieldOp w) 0 := by
  simpa only [formatNNN_fields] using formatNNN_and (fieldOp w) (fieldNNN w)

theorem and_familyN (w : Word) : w &&& 0xF00F#16 = formatXYN (fieldOp w) 0 0 (fieldN w) := by
  simpa only [formatXYN_fields] using formatXYN_and_sub (fieldOp w) (fieldX w) (fieldY w) (fieldN w)

theorem and_familyKK (w : Word) : w &&& 0xF0FF#16 = formatXKK (fieldOp w) 0 (fieldKK w) := by
  simpa only [formatXKK_fields] using formatXKK_and_sub (fieldOp w) (fieldX w) (fieldKK w)

theorem and_word_eq_iff (w p : Word) : w &&& 0xFFFF#16 = p ↔ w.toNat = p.toNat := by
  rw [show w &&& 0xFFFF#16 = w from BitVec.and_allOnes, BitVec.toNat_inj]

theorem and_family_eq_iff (w p : Word) :
    w &&& 0xF000#16 = p ↔ w.toNat / 4096 = p.toNat / 4096 ∧ 0 = p.toNat % 4096 := by
  rw [and_family, ← BitVec.toNat_inj, toNat_formatNNN, toNat_fieldOp, BitVec.ofNat_eq_ofNat, BitVec.toNat_zero]
  omega

theorem and_familyN_eq_iff (w p : Word) :
    w &&& 0xF00F#16 = p ↔ w.toNat / 4096 = p.toNat / 4096 ∧ w.toNat % 16 = p.toNat % 4096 := by
  rw [and_familyN, ← BitVec.toNat_inj, toNat_formatXYN, toNat_fieldOp, toNat_fieldN, BitVec.ofNat_eq_ofNat,
    BitVec.toNat_zero]
  omega

theorem and_familyKK_eq_iff (w p : Word) :
    w &&& 0xF0FF#16 = p ↔ w.toNat / 4096 = p.toNat / 4096 ∧ w.toNat % 256 = p.toNat % 4096 := by
  rw [and_familyKK, ← BitVec.toNat_inj, toNat_formatXKK, toNat_fieldOp, toNat_fieldKK, BitVec.ofNat_eq_ofNat,
    BitVec.toNat_zero]
  omega

/-! ### The search of the opcode map (R98) -/

theorem OpcodeRow.hits_iff (r : OpcodeRow) (w : Word) : r.hits w = true ↔ w &&& r.mask = r.pat := beq_iff_eq

/-- No word belongs to both rows. -/
def OpcodeRow.Disjoint (r q : OpcodeRow) : Prop := ∀ w, ¬ (r.hits w = true ∧ q.hits w = true)

/-- Two rows are disjoint when their patterns differ in a bit that both masks compare. -/
theorem OpcodeRow.disjoint_of_pat_ne {r q : OpcodeRow} (h : r.pat &&& q.mask ≠ q.pat &&& r.mask) : r.Disjoint q := by
  rintro w ⟨hr, hq⟩
  apply h
  calc r.pat &&& q.mask
    _ = w &&& r.mask &&& q.mask := by rw [(r.hits_iff w).mp hr]
    _ = w &&& q.mask &&& r.mask := by rw [BitVec.and_assoc, BitVec.and_comm r.mask, BitVec.and_assoc]
    _ = q.pat &&& r.mask := by rw [(q.hits_iff w).mp hq]

theorem opcodeMap_pairwise_disjoint : opcodeMap.Pairwise OpcodeRow.Disjoint := by
  have differ : opcodeMap.Pairwise (fun r q => r.pat &&& q.mask ≠ q.pat &&& r.mask) := by decide
  exact differ.imp OpcodeRow.disjoint_of_pat_ne

theorem decodeWord_eq_none_iff (w : Word) : decodeWord w = none ↔ ∀ r ∈ opcodeMap, r.hits w = false := by
  unfold decodeWord
  split
  next r hf => simpa using ⟨r, List.mem_of_find?_eq_some hf, List.find?_some (p := fun q : OpcodeRow => q.hits w) hf⟩
  next hf => simpa using hf

theorem exists_row_of_decodeWord {w : Word} {i : Instr} (h : decodeWord w = some i) :
    ∃ r ∈ opcodeMap, r.hits w = true ∧ r.build w = i := by
  unfold decodeWord at h
  split at h
  next r hf =>
    exact ⟨r, List.mem_of_find?_eq_some hf, List.find?_some (p := fun q : OpcodeRow => q.hits w) hf, Option.some.inj h⟩
  next => contradiction

/-- The rows being disjoint, the row a word belongs to is the one the search finds, wherever it stands. -/
theorem decodeWord_of_hits {r : OpcodeRow} {w : Word} (hr : r ∈ opcodeMap) (hw : r.hits w = true) :
    decodeWord w = some (r.build w) := by
  cases hd : decodeWord w with
  | none => exact absurd hw (by simp [(decodeWord_eq_none_iff w).mp hd r hr])
  | some i =>
    obtain ⟨q, hq, hqw, rfl⟩ := exists_row_of_decodeWord hd
    have hrq : r = q := by
      by_contra hne
      have : Std.Symm OpcodeRow.Disjoint := ⟨fun _ _ h w hw => h w hw.symm⟩
      exact opcodeMap_pairwise_disjoint.forall hr hq hne w ⟨hw, hqw⟩
    rw [hrq]

/-! ### From an instruction to its word and back -/

/-- The encoded word belongs to the instruction's own row: the family `RowMatch`, put together. -/
theorem rowMatch : ∀ i : Instr, Laws.RowMatch.Statement i
  | .cls => Laws.RowMatch.cls
  | .ret => Laws.RowMatch.ret
  | .jp nnn => Laws.RowMatch.jp nnn
  | .call nnn => Laws.RowMatch.call nnn
  | .seImm x kk => Laws.RowMatch.seImm x kk
  | .sneImm x kk => Laws.RowMatch.sneImm x kk
  | .seReg x y n => Laws.RowMatch.seReg x y n
  | .ldImm x kk => Laws.RowMatch.ldImm x kk
  | .addImm x kk => Laws.RowMatch.addImm x kk
  | .ldReg x y => Laws.RowMatch.ldReg x y
  | .orReg x y => Laws.RowMatch.orReg x y
  | .andReg x y => Laws.RowMatch.andReg x y
  | .xorReg x y => Laws.RowMatch.xorReg x y
  | .addReg x y => Laws.RowMatch.addReg x y
  | .sub x y => Laws.RowMatch.sub x y
  | .shr x y => Laws.RowMatch.shr x y
  | .subn x y => Laws.RowMatch.subn x y
  | .shl x y => Laws.RowMatch.shl x y
  | .sneReg x y n => Laws.RowMatch.sneReg x y n
  | .ldI nnn => Laws.RowMatch.ldI nnn
  | .jpV0 nnn => Laws.RowMatch.jpV0 nnn
  | .rnd x kk => Laws.RowMatch.rnd x kk
  | .drw x y n => Laws.RowMatch.drw x y n
  | .skp x => Laws.RowMatch.skp x
  | .sknp x => Laws.RowMatch.sknp x
  | .ldVxDt x => Laws.RowMatch.ldVxDt x
  | .ldVxK x => Laws.RowMatch.ldVxK x
  | .ldDtVx x => Laws.RowMatch.ldDtVx x
  | .ldStVx x => Laws.RowMatch.ldStVx x
  | .addI x => Laws.RowMatch.addI x
  | .ldF x => Laws.RowMatch.ldF x
  | .ldB x => Laws.RowMatch.ldB x
  | .ldMem x => Laws.RowMatch.ldMem x
  | .ldVxMem x => Laws.RowMatch.ldVxMem x

/-- The instruction's own row takes its operands out of the encoded word. -/
theorem build_encode {i : Instr} {r : OpcodeRow} (h : opcodeMap[(Laws.rowIndex i).val]? = some r) :
    r.build (encode i) = i := by
  cases i <;> cases h <;> simp [encode]

theorem decodeWord_encode (i : Instr) : decodeWord (encode i) = some i := by
  obtain ⟨r, hr, hit⟩ := rowMatch i
  rw [decodeWord_of_hits (List.mem_of_getElem? hr) hit, build_encode hr]

theorem decode_encodeBytes_append (i : Instr) (rest : List Byte) : decode (encodeBytes i ++ rest) = .ok (i, rest) := by
  show decode (highByte (encode i) :: lowByte (encode i) :: rest) = _
  rw [decode, wordOfBytes_highByte_lowByte, decodeWord_encode]

/-! ### From a word to its row's instruction and back: one lemma per format (R92 to R96) -/

section

variable (p : Word) (op n : Nib) (kk : Byte) {build : Word → Instr} (w : Word)

theorem word_of_hits (h : OpcodeRow.hits ⟨0xFFFF, p, build⟩ w = true) : p = w :=
  BitVec.eq_of_toNat_eq ((and_word_eq_iff w p).mp ((OpcodeRow.hits_iff _ w).mp h)).symm

theorem fieldOp_of_hits (h : OpcodeRow.hits ⟨0xF000, formatNNN op 0, build⟩ w = true) : fieldOp w = op := by
  have h := (and_family w).symm.trans ((OpcodeRow.hits_iff _ w).mp h)
  simpa using congrArg fieldOp h

theorem formatNNN_of_hits (h : OpcodeRow.hits ⟨0xF000, formatNNN op 0, build⟩ w = true) :
    formatNNN op (fieldNNN w) = w := by
  rw [← fieldOp_of_hits op w h, formatNNN_fields]

theorem formatXKK_of_hits (h : OpcodeRow.hits ⟨0xF000, formatNNN op 0, build⟩ w = true) :
    formatXKK op (fieldX w) (fieldKK w) = w := by
  rw [← fieldOp_of_hits op w h, formatXKK_fields]

theorem formatXYN_of_hits (h : OpcodeRow.hits ⟨0xF000, formatNNN op 0, build⟩ w = true) :
    formatXYN op (fieldX w) (fieldY w) (fieldN w) = w := by
  rw [← fieldOp_of_hits op w h, formatXYN_fields]

theorem formatXYN_sub_of_hits (h : OpcodeRow.hits ⟨0xF00F, formatXYN op 0 0 n, build⟩ w = true) :
    formatXYN op (fieldX w) (fieldY w) n = w := by
  have h := (and_familyN w).symm.trans ((OpcodeRow.hits_iff _ w).mp h)
  have hop : fieldOp w = op := by simpa using congrArg fieldOp h
  have hn : fieldN w = n := by simpa using congrArg fieldN h
  rw [← hop, ← hn, formatXYN_fields]

theorem formatXSS_of_hits (h : OpcodeRow.hits ⟨0xF0FF, formatXKK op 0 kk, build⟩ w = true) :
    formatXKK op (fieldX w) kk = w := by
  have h := (and_familyKK w).symm.trans ((OpcodeRow.hits_iff _ w).mp h)
  have hop : fieldOp w = op := by simpa using congrArg fieldOp h
  have hkk : fieldKK w = kk := by simpa using congrArg fieldKK h
  rw [← hop, ← hkk, formatXKK_fields]

end

/-- Row for row, in the order of the map. -/
theorem encode_build_of_hits : ∀ r ∈ opcodeMap, ∀ w, r.hits w = true → encode (r.build w) = w := by
  simp only [opcodeMap, List.forall_mem_cons]
  exact ⟨word_of_hits 0x00E0, word_of_hits 0x00EE,
    formatNNN_of_hits 0x1, formatNNN_of_hits 0x2, formatXKK_of_hits 0x3, formatXKK_of_hits 0x4,
    formatXYN_of_hits 0x5, formatXKK_of_hits 0x6, formatXKK_of_hits 0x7,
    formatXYN_sub_of_hits 0x8 0x0, formatXYN_sub_of_hits 0x8 0x1, formatXYN_sub_of_hits 0x8 0x2,
    formatXYN_sub_of_hits 0x8 0x3, formatXYN_sub_of_hits 0x8 0x4, formatXYN_sub_of_hits 0x8 0x5,
    formatXYN_sub_of_hits 0x8 0x6, formatXYN_sub_of_hits 0x8 0x7, formatXYN_sub_of_hits 0x8 0xE,
    formatXYN_of_hits 0x9, formatNNN_of_hits 0xA, formatNNN_of_hits 0xB, formatXKK_of_hits 0xC, formatXYN_of_hits 0xD,
    formatXSS_of_hits 0xE 0x9E, formatXSS_of_hits 0xE 0xA1,
    formatXSS_of_hits 0xF 0x07, formatXSS_of_hits 0xF 0x0A, formatXSS_of_hits 0xF 0x15, formatXSS_of_hits 0xF 0x18,
    formatXSS_of_hits 0xF 0x1E, formatXSS_of_hits 0xF 0x29, formatXSS_of_hits 0xF 0x33, formatXSS_of_hits 0xF 0x55,
    formatXSS_of_hits 0xF 0x65, List.forall_mem_nil _⟩

theorem encode_of_decodeWord {w : Word} {i : Instr} (h : decodeWord w = some i) : encode i = w := by
  obtain ⟨r, hr, hw, rfl⟩ := exists_row_of_decodeWord h
  exact encode_build_of_hits r hr w hw

end Sys2Proof

namespace Sys2Proof.Machine

variable {s : State}

theorem SameExcept.advancePc : SameExcept [.pc] s s.advancePc := by
  intro g hg
  cases g
  case pc => exact absurd (List.mem_singleton.mpr rfl) hg
  case mem => exact fun _ => rfl
  all_goals rfl

/-- A running machine that may fetch, and fetches an illegal word, takes the decode fault with the pc advanced
(40_step_cycle.md R124, R126). -/
theorem step_of_illegal_word (hrun : s.status = .running) (hok : checkFetch s.pc = none)
    (hd : decodeWord (Memory.fetchWord s.mem s.pc) = none) :
    step s = .next (s.advancePc.raise (.decodeFault (Memory.fetchWord s.mem s.pc))) := by
  rcases step_cases s with ⟨hgate, -⟩ | ⟨-, ⟨f, hf, -⟩ | ⟨-, ⟨-, e⟩ | ⟨i, hi, -⟩⟩⟩
  · exact absurd hrun hgate
  · exact absurd (hok.symm.trans hf) nofun
  · exact e
  · exact absurd (hd.symm.trans hi) nofun

end Sys2Proof.Machine
end

section
/-!
PROOFS. The encoding family (30_encoding.md): encoder and decoder are inverse to each other, the rows of the opcode map
are disjoint, the illegal words and their fault, the fields that are ignored.
-/

namespace Sys2Proof.Machine

/-- Settles O1: the encoded word belongs to the instruction's own row, no other row can catch it, and the row takes the
operands out again. -/
theorem decodeOfEncode : Obligations.DecodeOfEncode := by
  unfold Obligations.DecodeOfEncode
  exact fun i rest => ⟨decodeWord_encode i, decode_encodeBytes_append i rest⟩

/-- Settles O2, row by row: the mask fixes the bits of a word that the row's operand fields leave out. -/
theorem encodeOfDecode : Obligations.EncodeOfDecode := by
  unfold Obligations.EncodeOfDecode
  exact fun _ _ => encode_of_decodeWord

/-- Settles O3: any two patterns differ in a bit that both masks compare. -/
theorem opcodeRowsDisjoint : Obligations.OpcodeRowsDisjoint := by
  unfold Obligations.OpcodeRowsDisjoint
  exact ⟨opcodeMap_pairwise_disjoint, decodeWord_eq_none_iff⟩

/-- Settles O4. The words: no row's comparison holds, each as numbers, and then family by family. The step: the decode
phase of a fetch that is legal. -/
theorem illegalWords : Obligations.IllegalWords := by
  unfold Obligations.IllegalWords
  refine ⟨fun w => ?words, fun s w hrun heven hlo hhi hw hd => ?step⟩
  case words =>
    simp only [decodeWord_eq_none_iff, opcodeMap, List.forall_mem_cons, ← Bool.not_eq_true, OpcodeRow.hits_iff,
      BitVec.ofNat_eq_ofNat, and_word_eq_iff, and_family_eq_iff, and_familyN_eq_iff, and_familyKK_eq_iff]
    have hfamily : w.toNat / 4096 < 16 := by omega
    generalize hop : w.toNat / 4096 = op at hfamily ⊢
    interval_cases op <;> simp <;> omega
  case step =>
    have hfetch : Memory.fetchWord s.mem s.pc = w :=
      BitVec.eq_of_toNat_eq ((toNat_wordOfBytes _ _).trans hw.symm)
    have hok := (checkFetch_eq_none s.pc).mpr ⟨heven, hlo, hhi⟩
    subst hfetch
    refine ⟨_, step_of_illegal_word hrun hok hd, State.raise_status _ _, State.raise_pc _ _, ?frame⟩
    case frame =>
      exact (SameExcept.advancePc.mono (by simp)).trans ((SameExcept.raise _).mono (by simp))

/-- Settles O6: the decoder keeps the ignored fields as operands, and `exec` passes them to no meaning. -/
theorem ignoredFieldsDoNotMatter : Obligations.IgnoredFieldsDoNotMatter := by
  unfold Obligations.IgnoredFieldsDoNotMatter
  refine ⟨fun x y n => ⟨decodeWord_encode (.seReg x y n), decodeWord_encode (.sneReg x y n)⟩, fun x y y' n s => ?_⟩
  exact ⟨rfl, rfl, rfl, rfl⟩

end Sys2Proof.Machine
end

section
/-!
PROOFS. The frame of every instruction over the pieces of state (the summary table of 10_state.md, section 1).
-/

namespace Sys2Proof.Machine

variable {s t u : State}

/-- A frame, piece by piece. -/
theorem sameExcept_iff {fs : List Field} :
    SameExcept fs s t ↔
      (.v ∉ fs → t.v = s.v) ∧ (.i ∉ fs → t.i = s.i) ∧ (.pc ∉ fs → t.pc = s.pc) ∧ (.sp ∉ fs → t.sp = s.sp) ∧
      (.stack ∉ fs → t.stack = s.stack) ∧ (.dt ∉ fs → t.dt = s.dt) ∧ (.st ∉ fs → t.st = s.st) ∧
      (.mem ∉ fs → ∀ a, Memory.read t.mem a = Memory.read s.mem a) ∧ (.fb ∉ fs → t.fb = s.fb) ∧
      (.key ∉ fs → t.key = s.key) ∧ (.status ∉ fs → t.status = s.status) ∧ (.wx ∉ fs → t.wx = s.wx) ∧
      (.acc ∉ fs → t.acc = s.acc) ∧ (.draws ∉ fs → t.draws = s.draws) := by
  constructor
  · exact fun h => ⟨h .v, h .i, h .pc, h .sp, h .stack, h .dt, h .st, h .mem, h .fb, h .key, h .status, h .wx, h .acc,
      h .draws⟩
  · rintro ⟨hv, hi, hpc, hsp, hstack, hdt, hst, hmem, hfb, hkey, hstatus, hwx, hacc, hdraws⟩ f
    cases f <;> assumption

/-- A fault is in every frame that lists `STATUS` (60_exceptions.md R268). -/
theorem SameExcept.raise_of_mem {fs : List Field} {f : HaltReason} (hstatus : .status ∈ fs) :
    SameExcept fs s (s.raise f) :=
  (SameExcept.raise f).mono (by simpa using hstatus)

/-- A checked effect has the frame of its effect, if that lists `STATUS` for the fault. -/
theorem SameExcept.unlessFault {fs : List Field} {check : Option HaltReason}
    (h : s.unlessFault check (.next u) = .next t) (hstatus : .status ∈ fs) (hu : SameExcept fs s u) :
    SameExcept fs s t := by
  rcases State.unlessFault_next h with ⟨f, -, rfl⟩ | ⟨-, rfl⟩
  · exact .raise_of_mem hstatus
  · exact hu

/-- An instruction writes the pieces of state the summary table lists for it, and no others. -/
theorem exec_sameExcept {i : Instr} (h : exec i s = .next t) : SameExcept (writtenFields i) s t := by
  cases i
  case ret =>
    rcases execRet_cases s with ⟨-, e⟩ | ⟨-, -, w, -, e⟩ | ⟨-, e⟩ <;> cases e.symm.trans h
    · exact .raise_of_mem (by simp [writtenFields])
    · simp [sameExcept_iff, writtenFields]
  case call nnn =>
    rcases execCall_cases nnn s with ⟨-, e⟩ | ⟨-, e⟩ | ⟨-, e⟩ <;> cases e.symm.trans h
    · exact .raise_of_mem (by simp [writtenFields])
    · rw [State.setStackSlot_eq]
      simp [sameExcept_iff, writtenFields]
  case drw | ldB | ldMem =>
    all_goals exact .unlessFault h (by simp [writtenFields]) (by simp [sameExcept_iff, writtenFields])
  case ldVxMem =>
    refine .unlessFault h (by simp [writtenFields]) ?_
    rw [State.loadRegs_eq]
    simp [sameExcept_iff, writtenFields]
  case addReg | sub | shr | subn | shl =>
    all_goals cases h; simp [State.setResultAndFlag, sameExcept_iff, writtenFields]
  all_goals
    cases h
    simp [sameExcept_iff, writtenFields]

/-! ### Keys, accumulator and timers (40_step_cycle.md R129) -/

theorem key_notMem_writtenFields (i : Instr) : .key ∉ writtenFields i := by
  cases i <;> simp [writtenFields]

theorem acc_notMem_writtenFields (i : Instr) : .acc ∉ writtenFields i := by
  cases i <;> simp [writtenFields]

/-- `Fx15` is the only writer of `DT`. -/
theorem eq_ldDtVx_of_dt_mem {i : Instr} (h : .dt ∈ writtenFields i) : ∃ x, i = .ldDtVx x := by
  cases i
  case ldDtVx x => exact ⟨x, rfl⟩
  all_goals simp [writtenFields] at h

/-- `Fx18` is the only writer of `ST`. -/
theorem eq_ldStVx_of_st_mem {i : Instr} (h : .st ∈ writtenFields i) : ∃ x, i = .ldStVx x := by
  cases i
  case ldStVx x => exact ⟨x, rfl⟩
  all_goals simp [writtenFields] at h

theorem exec_dt_cases {i : Instr} (h : exec i s = .next t) :
    t.dt = s.dt ∨ ∃ x, i = .ldDtVx x ∧ t.dt = s.getV x := by
  by_cases hdt : .dt ∈ writtenFields i
  · obtain ⟨x, rfl⟩ := eq_ldDtVx_of_dt_mem hdt
    cases h
    exact .inr ⟨x, rfl, rfl⟩
  · exact .inl (exec_sameExcept h .dt hdt)

theorem exec_st_cases {i : Instr} (h : exec i s = .next t) :
    t.st = s.st ∨ ∃ x, i = .ldStVx x ∧ t.st = s.getV x := by
  by_cases hst : .st ∈ writtenFields i
  · obtain ⟨x, rfl⟩ := eq_ldStVx_of_st_mem hst
    cases h
    exact .inr ⟨x, rfl, rfl⟩
  · exact .inl (exec_sameExcept h .st hst)

end Sys2Proof.Machine
end

section
/-!
PROOFS. Rules of the cycle: what a step does in each status and phase (40_step_cycle.md R122 to R126), and what the
other boundary operations do to `STATUS` (R130).
-/

namespace Sys2Proof.Machine

variable {s t : State}

/-! ### One rule per phase -/

/-- The status gate (R122). -/
theorem step_of_not_running (h : s.status ≠ .running) : step s = .next s := by
  rcases step_cases s with ⟨-, e⟩ | ⟨hrun, -⟩
  · exact e
  · exact absurd hrun h

/-- The fetch raises before the pc is advanced (R123). -/
theorem step_of_fetch_fault {f : HaltReason} (hrun : s.status = .running) (hf : checkFetch s.pc = some f) :
    step s = .next (s.raise f) := by
  rcases step_cases s with ⟨hgate, -⟩ | ⟨-, ⟨g, hg, e⟩ | ⟨hok, -⟩⟩
  · exact absurd hrun hgate
  · rw [e, Option.some.inj (hg.symm.trans hf)]
  · exact absurd (hok.symm.trans hf) nofun

/-- A word that decodes is executed with the pc advanced (R124, R125). -/
theorem step_of_decodeWord {i : Instr} (hrun : s.status = .running) (hok : checkFetch s.pc = none)
    (hi : decodeWord (Memory.fetchWord s.mem s.pc) = some i) : step s = exec i s.advancePc := by
  rcases step_cases s with ⟨hgate, -⟩ | ⟨-, ⟨f, hf, -⟩ | ⟨-, ⟨hd, -⟩ | ⟨j, hj, e⟩⟩⟩
  · exact absurd hrun hgate
  · exact absurd (hok.symm.trans hf) nofun
  · exact absurd (hd.symm.trans hi) nofun
  · rw [e, Option.some.inj (hj.symm.trans hi)]

/-- The instruction two bytes decode to is the one their word decodes to (30_encoding.md R90). -/
theorem decodeWord_of_decode {hi lo : Byte} {rest : List Byte} {i : Instr} (h : decode [hi, lo] = .ok (i, rest)) :
    decodeWord (wordOfBytes hi lo) = some i := by
  cases hd : decodeWord (wordOfBytes hi lo) with
  | none => simp [decode, hd] at h
  | some j =>
    obtain ⟨rfl, -⟩ : j = i ∧ [] = rest := by simpa [decode, hd] using h
    rfl

/-- Every instruction but `Fx0A` leaves a running machine running or takes one fault (R130). -/
theorem exec_running_or_raise {i : Instr} (hrun : s.status = .running) (h : exec i s = .next t)
    (hi : ∀ x, i ≠ .ldVxK x) : t.status = .running ∨ ∃ f, t = s.raise f ∧ t.status = .halted f := by
  rcases exec_status h hi with e | ⟨f, rfl⟩
  · exact .inl (e.trans hrun)
  · exact .inr ⟨f, rfl, s.raise_status f⟩

/-! ### The other boundary operations -/

/-- The register latched by the wait holds the key's identifier after it. -/
theorem State.toNat_getV_endWait (k : Nib) : ((s.endWait k).getV s.wx).toNat = k.toNat := by
  have hkey : (s.endWait k).getV s.wx = k.setWidth 8 := s.getV_setV_self s.wx _
  rw [hkey, BitVec.toNat_setWidth_of_le (by decide)]

/-- The key press that ends a wait: the identifier to `V[WX]`, and `Running` (60_exceptions.md R284). -/
theorem State.setKey_ends_wait {id : Int} (hlo : 0 ≤ id) (hhi : id ≤ 15) (hwait : s.status = .waiting) :
    (s.setKey id true).status = .running ∧ ((s.setKey id true).getV s.wx).toNat = id.toNat := by
  rcases s.setKey_cases id true with ⟨hbad, -⟩ | ⟨-, -, hno, -⟩ | ⟨-, -, -, -, e⟩
  · omega
  · exact absurd ⟨rfl, hwait⟩ hno
  · rw [e]
    refine ⟨rfl, (State.toNat_getV_endWait (s := s.setKeyBit _ true) _).trans ?_⟩
    rw [BitVec.toNat_ofNat]
    omega

/-- Every other operation than `Step` and `Reset` keeps `STATUS`, but for the key press that ends a wait (R130). -/
theorem applyOp_keeps_status {op : Op} (h : applyOp op s = .next t) (hstep : op ≠ .step) (hreset : op ≠ .reset)
    (hpress : s.status = .waiting → ∀ id, 0 ≤ id → id ≤ 15 → op ≠ .setKey id true) : t.status = s.status := by
  cases op with
  | step => exact absurd rfl hstep
  | reset => exact absurd rfl hreset
  | load bytes =>
    cases h
    rcases s.load_cases bytes with ⟨-, e⟩ | ⟨-, e⟩ <;> rw [e]
    rfl
  | advanceTimers delta =>
    cases h
    rcases s.advanceTimers_cases delta with ⟨-, e⟩ | ⟨-, -, e⟩ | ⟨-, -, e⟩ <;> rw [e]
    · rfl
    · rfl
  | setKey id pressed =>
    cases h
    rcases s.setKey_cases id pressed with ⟨-, e⟩ | ⟨-, -, -, e⟩ | ⟨hlo, hhi, rfl, hwait, -⟩
    · rw [e]
    · rw [e]; rfl
    · exact absurd rfl (hpress hwait id hlo hhi)
  | framebuffer | shouldPlayTone => all_goals cases h; rfl

end Sys2Proof.Machine
end

section
/-!
PROOFS. The cycle family (40_step_cycle.md): a step runs the decoded instruction, the status gate, the transition table
of `STATUS`, and what a step never changes.
-/

namespace Sys2Proof.Machine

/-- Settles O7: the two bytes make the word the fetch returns, and the fetch passes its check. -/
theorem stepRunsDecodedInstruction : Obligations.StepRunsDecodedInstruction := by
  unfold Obligations.StepRunsDecodedInstruction
  intro s i hrun heven hlo hhi hdec
  have hok : checkFetch s.pc = none := (checkFetch_eq_none s.pc).mpr ⟨heven, hlo, hhi⟩
  exact ⟨step_of_decodeWord hrun hok (decodeWord_of_decode hdec), s.advancePc_of_fetchable hok, .advancePc⟩

/-- Settles O8: the gate keeps the state, and the response observes its status. -/
theorem stepGate : Obligations.StepGate := by
  unfold Obligations.StepGate
  refine ⟨fun s r hs => ⟨step_of_not_running (by simp [hs]), ?_⟩, fun s hs => ⟨step_of_not_running (by simp [hs]), ?_⟩⟩
  · simp [respond, hs, Status.observe]
  · simp [respond, hs, Status.observe]

/-- Settles O13: no instruction lists a key or the accumulator among what it writes, only `Fx15` lists `DT` and only
`Fx18` lists `ST`; the other phases write the pc and `STATUS`. -/
theorem stepNeverTicks : Obligations.StepNeverTicks := by
  unfold Obligations.StepNeverTicks
  intro s t h
  rcases step_cases s with ⟨-, e⟩ | ⟨-, ⟨f, -, e⟩ | ⟨-, ⟨-, e⟩ | ⟨i, hi, e⟩⟩⟩
  case inr.inr.inr =>
    have hexec := e.symm.trans h
    have hframe := exec_sameExcept hexec
    refine ⟨hframe .key (key_notMem_writtenFields i), hframe .acc (acc_notMem_writtenFields i), ?dt, ?st⟩
    case dt =>
      rcases exec_dt_cases hexec with hdt | ⟨x, rfl, hdt⟩
      · exact .inl hdt
      · exact .inr ⟨x, hi, hdt⟩
    case st =>
      rcases exec_st_cases hexec with hst | ⟨x, rfl, hst⟩
      · exact .inl hst
      · exact .inr ⟨x, hi, hst⟩
  all_goals
    cases e.symm.trans h
    exact ⟨rfl, rfl, .inl rfl, .inl rfl⟩

/-- Settles O12: a step by the rule of its status and phase, every other operation by what it keeps of `STATUS`. -/
theorem statusTransitions : Obligations.StatusTransitions := by
  unfold Obligations.StatusTransitions
  intro op s t h
  refine ⟨?reset, ?halted, ?step, ?runningKept, ?gated, ?waitingKept, ?press⟩
  case reset =>
    rintro rfl
    cases h
    rfl
  case halted =>
    intro hreset f hs
    by_cases hstep : op = .step
    · subst hstep
      cases (step_of_not_running (by simp [hs])).symm.trans h
      exact hs
    · exact (applyOp_keeps_status h hstep hreset (by simp [hs])).trans hs
  case step =>
    rintro hrun rfl
    refine ⟨fun f hf => ?fetch, fun hok hd => ?decode, fun hok x hi => ?wait, fun hok i hi hne => ?exec⟩
    case fetch =>
      cases (step_of_fetch_fault hrun hf).symm.trans h
      exact s.raise_status f
    case decode =>
      cases (step_of_illegal_word hrun hok hd).symm.trans h
      exact State.raise_status _ _
    case wait =>
      cases (step_of_decodeWord hrun hok hi).symm.trans h
      rfl
    case exec => exact exec_running_or_raise hrun ((step_of_decodeWord hrun hok hi).symm.trans h) hne
  case runningKept =>
    intro hrun hstep
    by_cases hreset : op = .reset
    · subst hreset
      cases h
      rfl
    · exact (applyOp_keeps_status h hstep hreset (by simp [hrun])).trans hrun
  case gated =>
    rintro hs rfl
    cases (step_of_not_running (by simp [hs])).symm.trans h
    rfl
  case waitingKept =>
    intro hs hreset hpress
    by_cases hstep : op = .step
    · subst hstep
      cases (step_of_not_running (by simp [hs])).symm.trans h
      exact hs
    · exact (applyOp_keeps_status h hstep hreset fun _ => hpress).trans hs
  case press =>
    rintro hs id hlo hhi rfl
    cases h
    exact State.setKey_ends_wait hlo hhi hs

end Sys2Proof.Machine
end

section
/-!
PROOFS. Rules of control flow (41_control_flow.md): the targets as numbers, the step after a bad target, what a call and
a return do to the call stack, and that a slot below the top keeps its content until `Reset` (R149).
-/

namespace Sys2Proof.Machine

variable {s t u : State}

/-! ### Targets -/

@[simp] theorem toNat_zextAddr (nnn : Addr12) : (zextAddr nnn).toNat = nnn.toNat :=
  BitVec.toNat_setWidth_of_le (by decide)

/-- The sum of `Bnnn` as numbers: 16 bits hold it (R143). -/
theorem toNat_zextAddr_add_zextByte (nnn : Addr12) (b : Byte) :
    (zextAddr nnn + zextByte b).toNat = nnn.toNat + b.toNat := by
  unfold zextAddr zextByte
  bv_omega

/-- From a pc it cannot fetch from, a running machine faults with that pc and changes nothing else (20_memory.md R63). -/
theorem step_faults_of_illegal_fetch (hrun : s.status = .running)
    (hpc : s.pc.toNat % 2 = 1 ∨ s.pc.toNat < 0x200 ∨ 0xFFE < s.pc.toNat) :
    ∃ t, step s = .next t ∧ t.status = .halted (.addressFault s.pc.toNat) ∧ SameExcept [.status] s t :=
  ⟨_, step_of_illegal_fetch hrun hpc, s.raise_status _, .raise _⟩

/-- The same where the pc is a 12-bit target, which cannot exceed 0xFFF: the bad ones are the odd and the low (R141). -/
theorem step_faults_of_bad_target {nnn : Addr12} (hrun : s.status = .running) (hpc : s.pc.toNat = nnn.toNat)
    (hbad : nnn.toNat % 2 = 1 ∨ nnn.toNat < 0x200) :
    ∃ t, step s = .next t ∧ t.status = .halted (.addressFault nnn.toNat) ∧ SameExcept [.status] s t := by
  rw [← hpc] at hbad ⊢
  exact step_faults_of_illegal_fetch hrun (by omega)

/-! ### Calls -/

/-- What a call leaves where there is room for its frame (R142). -/
def State.afterCall (s : State) (nnn : Addr12) : State :=
  ((s.setSp (s.sp + 1)).setStackSlot (s.sp.toNat + 1) s.pc).setPc (zextAddr nnn)

theorem exec_call_of_room (nnn : Addr12) (hroom : s.sp.toNat < 16) :
    exec (.call nnn) s = .next (s.afterCall nnn) := by
  rcases execCall_cases nnn s with ⟨h16, -⟩ | ⟨-, e⟩ | ⟨h16, -⟩
  · omega
  · exact e
  · omega

theorem exec_call_of_full (nnn : Addr12) (hfull : s.sp.toNat = 16) :
    exec (.call nnn) s = .next (s.raise .stackOverflow) := by
  rcases execCall_cases nnn s with ⟨-, e⟩ | ⟨h16, -⟩ | ⟨h16, -⟩
  · exact e
  · omega
  · omega

@[simp] theorem State.afterCall_pc (nnn : Addr12) : (s.afterCall nnn).pc = zextAddr nnn := rfl

theorem State.toNat_afterCall_sp (nnn : Addr12) (hroom : s.sp.toNat < 16) :
    (s.afterCall nnn).sp.toNat = s.sp.toNat + 1 := by
  have hsp : (s.afterCall nnn).sp = s.sp + 1 := by rw [State.afterCall, State.setStackSlot_eq]; rfl
  rw [hsp]
  bv_omega

/-- The pushed pc is the new top frame, and the other slots keep their content. -/
theorem State.stackSlot_afterCall (nnn : Addr12) (hroom : s.sp.toNat < 16) (k : Nat) :
    (s.afterCall nnn).stackSlot k = if k = s.sp.toNat + 1 then some s.pc else s.stackSlot k :=
  State.stackSlot_setStackSlot (s.setSp (s.sp + 1)) (s.sp.toNat + 1) k s.pc ⟨by omega, by omega⟩

theorem SameExcept.afterCall (nnn : Addr12) : SameExcept [.sp, .stack, .pc] s (s.afterCall nnn) := by
  rw [State.afterCall, State.setStackSlot_eq]
  simp [sameExcept_iff]

/-! ### Returns -/

/-- A return pops the frame its stack pointer names (R140); that there is such a slot says that 1 to 16 frames stand. -/
theorem exec_ret_of_slot {w : Word} (hw : s.stackSlot s.sp.toNat = some w) :
    exec .ret s = .next ((s.setPc w).setSp (s.sp - 1)) := by
  have hslot := (s.stackSlot_isSome s.sp.toNat).mp (by rw [hw]; rfl)
  rcases execRet_cases s with ⟨h0, -⟩ | ⟨-, -, v, hv, e⟩ | ⟨h16, -⟩
  · omega
  · cases hv.symm.trans hw
    exact e
  · omega

theorem exec_ret_of_empty (hempty : s.sp.toNat = 0) : exec .ret s = .next (s.raise .stackUnderflow) := by
  rcases execRet_cases s with ⟨-, e⟩ | ⟨h1, -⟩ | ⟨h16, -⟩
  · exact e
  · omega
  · omega

/-- A return fetched where the frame of a call from `s` is on top restores the pc and the stack pointer of `s`. -/
theorem exec_ret_restores (hsp : u.sp.toNat = s.sp.toNat + 1) (hframe : u.stackSlot (s.sp.toNat + 1) = some s.pc) :
    ∃ w, exec .ret u.advancePc = .next w ∧ w.pc = s.pc ∧ w.sp = s.sp := by
  rw [← hsp] at hframe
  refine ⟨_, exec_ret_of_slot (s := u.advancePc) hframe, rfl, ?sp⟩
  case sp =>
    show u.sp - 1 = s.sp
    bv_omega

/-! ### The slots in use keep their content -/

/-- A call is the only instruction that writes the stack. -/
theorem eq_call_of_stack_mem {i : Instr} (h : .stack ∈ writtenFields i) : ∃ nnn, i = .call nnn := by
  cases i
  case call nnn => exact ⟨nnn, rfl⟩
  all_goals simp [writtenFields] at h

/-- No instruction writes a slot in use: a call writes the slot above the top. -/
theorem exec_keeps_slot {i : Instr} (h : exec i s = .next t) {k : Nat} (hk : k ≤ s.sp.toNat) :
    t.stackSlot k = s.stackSlot k := by
  by_cases hstack : .stack ∈ writtenFields i
  · obtain ⟨nnn, rfl⟩ := eq_call_of_stack_mem hstack
    rcases execCall_cases nnn s with ⟨-, e⟩ | ⟨hroom, -⟩ | ⟨-, e⟩
    · cases e.symm.trans h
      rfl
    · cases (exec_call_of_room nnn hroom).symm.trans h
      rw [State.stackSlot_afterCall nnn hroom, if_neg (by omega)]
    · cases e.symm.trans h
  · exact State.stackSlot_congr (exec_sameExcept h .stack hstack) k

/-- By the phases of the cycle: only the execution of an instruction can write the stack (40_step_cycle.md R126). -/
theorem step_keeps_slot (h : step s = .next t) {k : Nat} (hk : k ≤ s.sp.toNat) : t.stackSlot k = s.stackSlot k := by
  rcases step_cases s with ⟨-, e⟩ | ⟨-, ⟨f, -, e⟩ | ⟨-, ⟨-, e⟩ | ⟨i, -, e⟩⟩⟩
  case inr.inr.inr => exact exec_keeps_slot (e.symm.trans h) hk
  all_goals
    cases e.symm.trans h
    rfl

/-- Beside a step only `Reset` writes the stack. -/
theorem applyOp_keeps_slot {op : Op} (h : applyOp op s = .next t) (hreset : op ≠ .reset) {k : Nat}
    (hk : k ≤ s.sp.toNat) : t.stackSlot k = s.stackSlot k := by
  cases op with
  | step => exact step_keeps_slot h hk
  | reset => exact absurd rfl hreset
  | load bytes =>
    cases h
    rcases s.load_cases bytes with ⟨-, e⟩ | ⟨-, e⟩ <;> rw [e]
    rfl
  | advanceTimers delta =>
    cases h
    rcases s.advanceTimers_cases delta with ⟨-, e⟩ | ⟨-, -, e⟩ | ⟨-, -, e⟩ <;> rw [e]
    · rfl
    · rfl
  | setKey id pressed =>
    cases h
    rcases s.setKey_cases id pressed with ⟨-, e⟩ | ⟨-, -, -, e⟩ | ⟨-, -, -, -, e⟩ <;> rw [e]
    · rfl
    · rfl
  | framebuffer | shouldPlayTone => all_goals cases h; rfl

/-- Along a run that keeps more than `n` frames, slot `n + 1` keeps its content (R149). -/
theorem RunsWhile.keeps_slot {n : Nat} (h : RunsWhile (fun r => n < r.sp.toNat) s t) (hs : n < s.sp.toNat) :
    n < t.sp.toNat ∧ t.stackSlot (n + 1) = s.stackSlot (n + 1) := by
  induction h with
  | refl => exact ⟨hs, rfl⟩
  | op o _ hreset ha hsp ih =>
    obtain ⟨hbefore, hslot⟩ := ih
    exact ⟨hsp, (applyOp_keeps_slot ha hreset hbefore).trans hslot⟩

end Sys2Proof.Machine
end

section
/-!
PROOFS. The control-flow family (41_control_flow.md): jumps, calls and returns, their pairing, and the skips on register
values.
-/

namespace Sys2Proof.Machine

/-- Settles O24: the call stores its post-fetch pc in the slot above the top, that slot is in use all the way, and the
return pops it. -/
theorem callReturnPairs : Obligations.CallReturnPairs := by
  unfold Obligations.CallReturnPairs
  intro nnn s t u hroom hcall hrun husp
  cases (exec_call_of_room nnn hroom).symm.trans hcall
  have hpushed : s.sp.toNat < (s.afterCall nnn).sp.toNat := by
    rw [State.toNat_afterCall_sp nnn hroom]
    omega
  obtain ⟨-, hkept⟩ := hrun.keeps_slot hpushed
  refine exec_ret_restores husp ?frame
  case frame => rw [hkept, State.stackSlot_afterCall nnn hroom, if_pos rfl]

/-- Settles O17: a bad target is one the next fetch refuses. -/
theorem jumpSetsPc : Obligations.JumpSetsPc := by
  unfold Obligations.JumpSetsPc
  intro nnn s
  exact ⟨s.setPc (zextAddr nnn), rfl, toNat_zextAddr nnn, exec_sameExcept (i := .jp nnn) rfl,
    fun hrun hbad => step_faults_of_bad_target hrun (toNat_zextAddr nnn) hbad⟩

/-- Settles O18: the sum fits 16 bits, so it is the pc as it stands, and the next fetch checks it. -/
theorem jumpV0SetsPc : Obligations.JumpV0SetsPc := by
  unfold Obligations.JumpV0SetsPc
  intro nnn s
  have hsum := toNat_zextAddr_add_zextByte nnn (s.getV 0)
  refine ⟨s.setPc (zextAddr nnn + zextByte (s.getV 0)), rfl, hsum, zextAddr_add_zextByte_le nnn _,
    exec_sameExcept (i := .jpV0 nnn) rfl, fun hrun hbad => ?fault⟩
  case fault =>
    rw [← hsum]
    exact step_faults_of_illegal_fetch hrun hbad

/-- Settles O19: the state of the call is read off its rules, and the pushed pc is the one a legal fetch leaves. -/
theorem callPushesOrOverflows : Obligations.CallPushesOrOverflows := by
  unfold Obligations.CallPushesOrOverflows
  refine ⟨fun nnn s hroom => ?push, fun p s hfetch hpc => ?pushed, fun nnn s hfull => ?overflow⟩
  case push =>
    have hsp := State.toNat_afterCall_sp nnn hroom
    have hslot := State.stackSlot_afterCall nnn hroom
    have hframe : (s.afterCall nnn).stackSlot (s.sp.toNat + 1) = some s.pc := by rw [hslot, if_pos rfl]
    refine ⟨s.afterCall nnn, exec_call_of_room nnn hroom, hsp, by rw [hsp, hframe], toNat_zextAddr nnn,
      fun k hk => by rw [hslot, if_neg hk], .afterCall nnn, exec_ret_restores hsp hframe, fun hrun hbad => ?fault⟩
    case fault =>
      have hstatus : (s.afterCall nnn).status = s.status := SameExcept.afterCall nnn .status (by simp)
      exact step_faults_of_bad_target (hstatus.trans hrun) (toNat_zextAddr nnn) hbad
  case pushed =>
    have hret : IsReturnAddress (p + 2) := State.isReturnAddress_advancePc (s := s.setPc p) hfetch
    rw [hpc]
    exact hret
  case overflow => exact ⟨_, exec_call_of_full nnn hfull, s.raise_status _, .raise _⟩

/-- Settles O20: with 1 to 16 frames the top slot exists and is popped. -/
theorem returnPopsOrUnderflows : Obligations.ReturnPopsOrUnderflows := by
  unfold Obligations.ReturnPopsOrUnderflows
  refine ⟨fun s h1 h16 => ?pop, fun s hempty => ?underflow⟩
  case pop =>
    obtain ⟨w, hw⟩ := Option.isSome_iff_exists.mp ((s.stackSlot_isSome s.sp.toNat).mpr ⟨h1, h16⟩)
    refine ⟨_, exec_ret_of_slot hw, hw, ?sp, by simp [sameExcept_iff]⟩
    case sp =>
      show (s.sp - 1).toNat + 1 = s.sp.toNat
      bv_omega
  case underflow => exact ⟨_, exec_ret_of_empty hempty, s.raise_status _, .raise _⟩

/-- Settles O22: the two skips take opposite conditions, and neither checks the pc it leaves. -/
theorem skipOnImmediate : Obligations.SkipOnImmediate := by
  unfold Obligations.SkipOnImmediate
  intro x kk s
  have fault (c : Bool) (hrun : s.status = .running) (hpast : 0xFFE < (s.skipIf c).pc.toNat) :=
    step_faults_of_illegal_fetch ((s.skipIf_status c).trans hrun) (.inr (.inr hpast))
  exact ⟨⟨s.skipIf (s.getV x == kk), rfl, exec_sameExcept (i := .seImm x kk) rfl, by simp, fault _⟩,
    ⟨s.skipIf (s.getV x != kk), rfl, exec_sameExcept (i := .sneImm x kk) rfl, by simp, fault _⟩⟩

/-- Settles O23: no meaning takes the ignored field. -/
theorem skipOnRegister : Obligations.SkipOnRegister := by
  unfold Obligations.SkipOnRegister
  intro x y n s
  exact ⟨⟨s.skipIf (s.getV x == s.getV y), rfl, exec_sameExcept (i := .seReg x y n) rfl, by simp⟩,
    ⟨s.skipIf (s.getV x != s.getV y), rfl, exec_sameExcept (i := .sneReg x y n) rfl, by simp⟩⟩

end Sys2Proof.Machine
end

section
/-!
PROOFS. Rules of the ALU (42_load_alu.md): the flags, the results and the registers afterwards, as numbers.
-/

namespace Sys2Proof.Machine

variable {s : State}

/-! ### Flags and results -/

theorem toNat_flagByte_carryOut (a b : Byte) :
    (flagByte (carryOut a b)).toNat = if a.toNat + b.toNat > 255 then 1 else 0 := by
  simp [flagByte_toNat, carryOut]

theorem toNat_flagByte_noBorrow (a b : Byte) :
    (flagByte (noBorrow a b)).toNat = if a.toNat ≥ b.toNat then 1 else 0 := by
  simp [flagByte_toNat, noBorrow]

/-- The flag byte of the bit `k` of a byte. -/
theorem toNat_flagByte_getLsbD (a : Byte) (k : Nat) : (flagByte (a.getLsbD k)).toNat = a.toNat / 2 ^ k % 2 := by
  rw [flagByte_toNat, BitVec.getLsbD, ← Nat.toNat_testBit, Bool.toNat, Bool.cond_eq_ite]

/-- The flag of a right shift is the remainder of the halving (R170). -/
theorem toNat_flagByte_shiftedOutRight (a : Byte) : (flagByte (shiftedOutRight a)).toNat = a.toNat % 2 := by
  rw [shiftedOutRight, toNat_flagByte_getLsbD, pow_zero, Nat.div_one]

/-- The flag of a left shift is the carry of the doubling: of a byte, the quotient by 128 is one bit (R172). -/
theorem toNat_flagByte_shiftedOutLeft (a : Byte) : (flagByte (shiftedOutLeft a)).toNat = a.toNat / 128 := by
  rw [shiftedOutLeft, toNat_flagByte_getLsbD]
  omega

/-- A subtraction of bytes is the difference of the numbers modulo 256. -/
theorem toNat_sub_emod (a b : Byte) : ((a - b).toNat : Int) = (a.toNat - b.toNat : Int) % 256 := by
  rw [BitVec.toNat_sub]
  omega

/-! ### The registers after a write -/

/-- `State.getV_setV`, as numbers. -/
theorem State.toNat_getV_setV (x r : Nib) (b : Byte) :
    ((s.setV x b).getV r).toNat = if r = x then b.toNat else (s.getV r).toNat := by
  rw [State.getV_setV, apply_ite BitVec.toNat]

/-- `State.getV_setResultAndFlag`, as numbers. -/
theorem State.toNat_getV_setResultAndFlag (x r : Nib) (b : Byte) (f : Bool) :
    ((s.setResultAndFlag x b f).getV r).toNat =
      if r = 15 then (flagByte f).toNat else if r = x then b.toNat else (s.getV r).toNat := by
  rw [State.getV_setResultAndFlag, apply_ite BitVec.toNat, apply_ite BitVec.toNat]

/-- A subtraction and its flag, `8xy5` and `8xy7` alike (R169, R171). -/
theorem State.toNat_getV_setResultAndFlag_sub (x r : Nib) (a b : Byte) :
    (((s.setResultAndFlag x (a - b) (noBorrow a b)).getV r).toNat : Int) =
      if r = 15 then (if a.toNat ≥ b.toNat then 1 else 0)
      else if r = x then (a.toNat - b.toNat : Int) % 256
      else (s.getV r).toNat := by
  rw [State.toNat_getV_setResultAndFlag, toNat_flagByte_noBorrow, ← toNat_sub_emod]
  push_cast
  rfl

end Sys2Proof.Machine
end

section
/-!
PROOFS. The load-immediate and ALU family (42_load_alu.md): what each instruction leaves in every register, VF included.
-/

namespace Sys2Proof.Machine

/-- Settles O25: a load and an addition write `V[x]` alone; neither writes a flag. -/
theorem immediateForms : Obligations.ImmediateForms := by
  unfold Obligations.ImmediateForms
  intro x kk s
  refine ⟨⟨_, rfl, exec_sameExcept (i := .ldImm x kk) rfl, fun r => s.getV_setV x r kk⟩,
    ⟨_, rfl, exec_sameExcept (i := .addImm x kk) rfl, fun r => ?sum⟩⟩
  case sum => rw [State.toNat_getV_setV, BitVec.toNat_add]

/-- Settles O26: each logical operation acts on the two bytes bit by bit, and only `V[x]` is written. -/
theorem assignAndLogic : Obligations.AssignAndLogic := by
  unfold Obligations.AssignAndLogic
  intro x y s
  refine ⟨⟨_, rfl, exec_sameExcept (i := .ldReg x y) rfl, fun r => s.getV_setV x r _⟩,
    ⟨_, rfl, exec_sameExcept (i := .orReg x y) rfl, .setV s x _, fun b => ?or⟩,
    ⟨_, rfl, exec_sameExcept (i := .andReg x y) rfl, .setV s x _, fun b => ?and⟩,
    ⟨_, rfl, exec_sameExcept (i := .xorReg x y) rfl, .setV s x _, fun b => ?xor⟩⟩
  case or => rw [State.getV_setV_self, BitVec.getLsbD_or]
  case and => rw [State.getV_setV_self, BitVec.getLsbD_and]
  case xor => rw [State.getV_setV_self, BitVec.getLsbD_xor]

/-- Settles O27: the carry is written after the sum, so it stands where VF is the destination. -/
theorem addWithCarryOut : Obligations.AddWithCarryOut := by
  unfold Obligations.AddWithCarryOut
  intro x y s
  refine ⟨_, rfl, exec_sameExcept (i := .addReg x y) rfl, fun r => ?registers⟩
  case registers =>
    rw [State.toNat_getV_setResultAndFlag, toNat_flagByte_carryOut, BitVec.toNat_add]

/-- Settles O28: the subtraction `V[x] - V[y]` and its flag. -/
theorem subtractNoBorrow : Obligations.SubtractNoBorrow := by
  unfold Obligations.SubtractNoBorrow
  exact fun x y s => ⟨_, rfl, exec_sameExcept (i := .sub x y) rfl,
    fun r => State.toNat_getV_setResultAndFlag_sub x r (s.getV x) (s.getV y)⟩

/-- Settles O29: the same subtraction with the operands the other way round. -/
theorem reverseSubtractNoBorrow : Obligations.ReverseSubtractNoBorrow := by
  unfold Obligations.ReverseSubtractNoBorrow
  exact fun x y s => ⟨_, rfl, exec_sameExcept (i := .subn x y) rfl,
    fun r => State.toNat_getV_setResultAndFlag_sub x r (s.getV y) (s.getV x)⟩

/-- Settles O30: a shift halves or doubles, its flag is the bit that falls out, and no meaning takes `y`. -/
theorem shiftsByOne : Obligations.ShiftsByOne := by
  unfold Obligations.ShiftsByOne
  intro x y s
  refine ⟨⟨_, rfl, exec_sameExcept (i := .shr x y) rfl, fun r => ?right⟩,
    ⟨_, rfl, exec_sameExcept (i := .shl x y) rfl, fun r => ?left⟩⟩
  case right =>
    rw [State.toNat_getV_setResultAndFlag, toNat_flagByte_shiftedOutRight, BitVec.toNat_ushiftRight,
      Nat.shiftRight_eq_div_pow, pow_one]
  case left =>
    rw [State.toNat_getV_setResultAndFlag, toNat_flagByte_shiftedOutLeft, BitVec.toNat_shiftLeft,
      Nat.shiftLeft_eq, pow_one, Nat.mul_comm]

end Sys2Proof.Machine
end

section
/-!
PROOFS. Rules of the address register (43_index_random.md): the sum and the glyph address as numbers, and the font as
the invariant keeps it.
-/

namespace Sys2Proof.Machine

theorem toNat_zextByte (b : Byte) : (zextByte b).toNat = b.toNat :=
  BitVec.toNat_setWidth_of_le (by decide)

/-- The address of a glyph as a number: 16 bits hold five times any byte (R192). -/
theorem toNat_glyphAddr (b : Byte) : (glyphAddr b).toNat = 5 * b.toNat := by
  have hb := b.isLt
  calc (glyphAddr b).toNat
    _ = b.toNat * 5 % 2 ^ 16 := by rw [glyphAddr, BitVec.toNat_mul, toNat_zextByte]; rfl
    _ = 5 * b.toNat := by omega

/-- Under the invariant the bytes below 0x50 are the font (20_memory.md R60). -/
theorem State.Inv.font_getElem? {s : State} (hs : s.Inv) {k : Nat} (hk : k < 80) :
    Config.font[k]? = some (Memory.read s.mem k) := by
  rw [hs.lowMem k (by omega), Memory.powerOn_font k hk, Vector.getElem?_eq_getElem hk]

end Sys2Proof.Machine
end

section
/-!
PROOFS. The address-register and random family (43_index_random.md): what each instruction leaves in `I`, the glyph a
draw reads after `Fx29`, and the masked random byte.
-/

namespace Sys2Proof.Machine

/-- Settles O31: the address is extended with zeros, and `I` alone is written. -/
theorem setAddressRegister : Obligations.SetAddressRegister := by
  unfold Obligations.SetAddressRegister
  exact fun nnn s => ⟨s.setI (zextAddr nnn), rfl, toNat_zextAddr nnn, exec_sameExcept (i := .ldI nnn) rfl⟩

/-- Settles O32: the sum of 16-bit words is the sum of the numbers modulo 2^16, and `I` alone is written. -/
theorem addToAddressRegister : Obligations.AddToAddressRegister := by
  unfold Obligations.AddToAddressRegister
  intro x s
  refine ⟨s.setI (s.i + zextByte (s.getV x)), rfl, ?sum, exec_sameExcept (i := .addI x) rfl⟩
  case sum => rw [State.setI_i, BitVec.toNat_add, toNat_zextByte]

/-- Settles O33: the product does not overflow, and `I` alone is written. -/
theorem glyphAddress : Obligations.GlyphAddress := by
  unfold Obligations.GlyphAddress
  exact fun x s =>
    ⟨s.setI (glyphAddr (s.getV x)), rfl, toNat_glyphAddr (s.getV x), exec_sameExcept (i := .ldF x) rfl⟩

/-- Settles O34: the five bytes of a digit's glyph lie below 0x50, where the invariant keeps the font. -/
theorem fontIdiom : Obligations.FontIdiom := by
  unfold Obligations.FontIdiom
  intro x s hs hdigit
  refine ⟨s.setI (glyphAddr (s.getV x)), rfl, fun k hk => ?byte⟩
  case byte =>
    rw [State.setI_i, State.setI_mem, toNat_glyphAddr]
    exact hs.font_getElem? (by omega)

/-- Settles O35: `V[x]` takes the draw at the counter, masked; the frames are those of one register and the counter. -/
theorem randomMasked : Obligations.RandomMasked := by
  unfold Obligations.RandomMasked
  intro x kk s
  have hx : ((s.setV x (Config.draw s.draws &&& kk)).setDraws (s.draws + 1)).getV x = Config.draw s.draws &&& kk :=
    s.getV_setV_self x _
  refine ⟨_, rfl, hx, rfl, fun b hb => ?masked, .setV s x _, exec_sameExcept (i := .rnd x kk) rfl, rfl⟩
  case masked => rw [hx, BitVec.getLsbD_and, hb, Bool.and_false]

end Sys2Proof.Machine
end

section
/-!
PROOFS. Rules of the draw (44_graphics.md R202 to R206): its two outcomes, the state a readable draw leaves, and which
cells its sprite covers.
-/

namespace Sys2Proof.Machine

variable {s : State} {x y n : Nib} {r : Fin 32} {c : Fin 64}

theorem flagByte_eq_one_iff {b : Bool} : flagByte b = 1 ↔ b = true := by
  cases b <;> simp [flagByte]

/-! ### The two outcomes -/

/-- The state after a draw whose sprite bytes are readable. -/
def State.afterDrw (s : State) (x y n : Nib) : State :=
  (s.setFb (drawSprite s.mem s.i (s.getV x) (s.getV y) n.toNat s.fb).1).setFlag
    (drawSprite s.mem s.i (s.getV x) (s.getV y) n.toNat s.fb).2

/-- A height of 0 reads nothing, so no address is out of range (R206). -/
theorem exec_drw_of_readable (hread : n = 0 ∨ s.i.toNat + n.toNat ≤ 0x1000) :
    exec (.drw x y n) s = .next (s.afterDrw x y n) := by
  have hcheck : checkRead s.i.toNat n.toNat = none :=
    (checkRead_eq_none _ _).mpr (hread.imp_left (congrArg BitVec.toNat))
  show s.unlessFault (checkRead s.i.toNat n.toNat) _ = _
  rw [hcheck, State.unlessFault_none]
  rfl

theorem exec_drw_of_unreadable (hn : n ≠ 0) (hfar : 0x1000 < s.i.toNat + n.toNat) :
    exec (.drw x y n) s = .next (s.raise (.addressFault (max s.i.toNat 0x1000))) := by
  have hcheck : checkRead s.i.toNat n.toNat = some (.addressFault (max s.i.toNat 0x1000)) :=
    (checkRead_eq_some _ _ _).mpr ⟨fun h0 => hn (BitVec.eq_of_toNat_eq h0), hfar, rfl⟩
  show s.unlessFault (checkRead s.i.toNat n.toNat) _ = _
  rw [hcheck, State.unlessFault_some]

/-! ### The state a readable draw leaves -/

theorem SameRegsExcept.afterDrw : SameRegsExcept [15] s (s.afterDrw x y n) :=
  .setV (s.setFb _) 15 _

theorem SameExcept.afterDrw : SameExcept [.v, .fb] s (s.afterDrw x y n) := by
  simp [sameExcept_iff, State.afterDrw]

/-- Some 1 pixel of the sprite that `Dxyn` draws from `s` lies on the cell `(r, c)` (R203, R204). -/
def State.DrwCovers (s : State) (x y n : Nib) (r : Fin 32) (c : Fin 64) : Prop :=
  SpriteCovers s.mem s.i (s.getV x) (s.getV y) n.toNat r c

/-- A covered cell is inverted: a sprite has at most 15 rows, so it never wraps onto itself. -/
theorem State.cell_afterDrw_of_covers (h : s.DrwCovers x y n r c) :
    Framebuffer.cell (s.afterDrw x y n).fb r c = !Framebuffer.cell s.fb r c :=
  ((drawSprite_spec s.mem s.i (s.getV x) (s.getV y) s.fb n.toNat (by omega)).1 r c).1 h

theorem State.cell_afterDrw_of_not_covers (h : ¬ s.DrwCovers x y n r c) :
    Framebuffer.cell (s.afterDrw x y n).fb r c = Framebuffer.cell s.fb r c :=
  ((drawSprite_spec s.mem s.i (s.getV x) (s.getV y) s.fb n.toNat (by omega)).1 r c).2 h

theorem State.cell_afterDrw_eq_true_iff :
    Framebuffer.cell (s.afterDrw x y n).fb r c = true ↔
      (s.DrwCovers x y n r c ∧ Framebuffer.cell s.fb r c = false) ∨
        (¬ s.DrwCovers x y n r c ∧ Framebuffer.cell s.fb r c = true) := by
  by_cases h : s.DrwCovers x y n r c
  · simp [State.cell_afterDrw_of_covers h, h]
  · simp [State.cell_afterDrw_of_not_covers h, h]

/-- The collision flag (R202): some covered cell was on. -/
theorem State.getV_afterDrw_flag_eq_one_iff :
    (s.afterDrw x y n).getV 15 = 1 ↔ ∃ r c, s.DrwCovers x y n r c ∧ Framebuffer.cell s.fb r c = true := by
  rw [State.afterDrw, State.getV_setFlag, if_pos rfl, flagByte_eq_one_iff]
  exact (drawSprite_spec s.mem s.i (s.getV x) (s.getV y) s.fb n.toNat (by omega)).2

/-! ### A draw repeated -/

/-- The sprite lies where it lay, unless the flag has moved it (R206). -/
theorem State.drwCovers_afterDrw (hx : x ≠ 15) (hy : y ≠ 15) :
    (s.afterDrw x y n).DrwCovers x y n r c ↔ s.DrwCovers x y n r c := by
  have hregs : SameRegsExcept [15] s (s.afterDrw x y n) := .afterDrw
  rw [State.DrwCovers, hregs x (by simpa using hx), hregs y (by simpa using hy)]
  rfl

/-- Two inversions of the same cells are none (R205). -/
theorem State.fb_afterDrw_afterDrw (hx : x ≠ 15) (hy : y ≠ 15) :
    ((s.afterDrw x y n).afterDrw x y n).fb = s.fb := by
  refine Framebuffer.ext fun r c => ?_
  by_cases h : s.DrwCovers x y n r c
  · rw [State.cell_afterDrw_of_covers ((State.drwCovers_afterDrw hx hy).mpr h), State.cell_afterDrw_of_covers h,
      Bool.not_not]
  · rw [State.cell_afterDrw_of_not_covers (mt (State.drwCovers_afterDrw hx hy).mp h),
      State.cell_afterDrw_of_not_covers h]

end Sys2Proof.Machine
end

section
/-!
PROOFS. The graphics family (44_graphics.md): the cleared screen, the draw with its collision flag and its fault, and
the draw repeated.
-/

namespace Sys2Proof.Machine

/-- Settles O37: a readable draw inverts the covered cells and flags those that were on; an unreadable one takes the
fault of its check. (`drawSprite` alone is the model's function.) -/
theorem drawSprite_holds : Obligations.DrawSprite := by
  unfold Obligations.DrawSprite
  refine ⟨fun x y n s hread => ?readable, fun x y n s hn hfar => ?unreadable⟩
  case readable =>
    exact ⟨_, exec_drw_of_readable hread, fun _ _ => State.cell_afterDrw_eq_true_iff,
      (State.getV_setFlag_flag _).symm, State.getV_afterDrw_flag_eq_one_iff, .afterDrw, .afterDrw⟩
  case unreadable =>
    exact ⟨_, exec_drw_of_unreadable hn hfar, State.raise_status _ _, .raise _⟩

/-- Settles O38: the second draw covers the cells of the first, and it finds on those that the first found off. -/
theorem drawTwiceRestores : Obligations.DrawTwiceRestores := by
  unfold Obligations.DrawTwiceRestores
  intro x y n s hx hy hread
  refine ⟨_, _, exec_drw_of_readable hread, exec_drw_of_readable hread, State.fb_afterDrw_afterDrw hx hy, ?flag⟩
  case flag =>
    refine State.getV_afterDrw_flag_eq_one_iff.trans (exists_congr fun r => exists_congr fun c => ?_)
    rw [State.drwCovers_afterDrw hx hy]
    refine and_congr_right fun hcovers => ?_
    rw [State.cell_afterDrw_of_covers hcovers, Bool.not_eq_true']

/-- Settles O36: the cleared framebuffer, and nothing else written. -/
theorem clearScreen : Obligations.ClearScreen := by
  unfold Obligations.ClearScreen
  exact fun s => ⟨s.setFb Framebuffer.clear, rfl, Framebuffer.cell_clear, exec_sameExcept (i := .cls) rfl⟩

end Sys2Proof.Machine
end

section
/-!
PROOFS. Rules of the keypad (45_keypad_timers.md R220, 60_exceptions.md R284): the key a byte selects, and what a press
and a release leave.
-/

namespace Sys2Proof.Machine

variable {s : State}

theorem keySelect_eq {b : Byte} {k : Nib} (hk : k.toNat = b.toNat % 16) : keySelect b = k :=
  BitVec.eq_of_toNat_eq ((BitVec.toNat_setWidth 4 b).trans hk.symm)

/-- A press during a wait stores the key and ends the wait (R284). -/
theorem State.setKey_press_of_waiting (hwait : s.status = .waiting) (k : Nib) :
    s.setKey k.toNat true = (s.setKeyBit k true).endWait k := by
  have hk : BitVec.ofNat 4 (k.toNat : Int).toNat = k := by simp
  rcases s.setKey_cases k.toNat true with ⟨hbad, -⟩ | ⟨-, -, hno, -⟩ | ⟨-, -, -, -, e⟩
  · omega
  · exact absurd ⟨rfl, hwait⟩ hno
  · rw [e, hk]

theorem State.isPressed_endWait (k j : Nib) : (s.endWait k).isPressed j = s.isPressed j := rfl

theorem SameRegsExcept.endWait (k : Nib) : SameRegsExcept [s.wx] s (s.endWait k) :=
  .setV s s.wx _

/-- The press that ends a wait writes the key, the latched register and `STATUS`. -/
theorem SameExcept.press (k : Nib) : SameExcept [.v, .key, .status] s ((s.setKeyBit k true).endWait k) := by
  simp [sameExcept_iff, State.endWait, State.setKeyBit]

/-- A clock advance keeps `STATUS` (60_exceptions.md R279). -/
theorem State.advanceTimers_status (delta : Rat) : (s.advanceTimers delta).status = s.status :=
  applyOp_keeps_status (op := .advanceTimers delta) rfl nofun nofun nofun

/-- A release never ends a wait (R284). -/
theorem State.setKey_release_status (id : Int) : (s.setKey id false).status = s.status :=
  applyOp_keeps_status (op := .setKey id false) rfl nofun nofun nofun

end Sys2Proof.Machine
end

section
/-!
PROOFS. A state in another environment: other keys, timers, accumulator and random source. Every operation an
instruction is made of commutes with the change of environment, unless it reads one of these.
-/

namespace Sys2Proof.Machine

variable {s s' e t u : State}

/-- `s` with the keys, timers, accumulator and random source of `e`, and with the memory of `e`: the list that stands
for the same bytes need not be the same (`Field.same` compares memory by its reads). -/
def State.inEnvironment (s e : State) : State :=
  { s with mem := e.mem, key := e.key, dt := e.dt, st := e.st, acc := e.acc, draws := e.draws }

/-- The memory of `e` reads as that of `s`, so `s.inEnvironment e` has the bytes of `s`. -/
def State.SameBytes (s e : State) : Prop := ∀ a, Memory.read e.mem a = Memory.read s.mem a

/-- The states alike but for the environment are those in another environment. -/
theorem alikeButEnvironment_iff :
    AlikeButEnvironment s s' ↔ ∃ e, s.SameBytes e ∧ s' = s.inEnvironment e := by
  constructor
  · intro h
    obtain ⟨hv, hi, hpc, hsp, hstack, -, -, hmem, hfb, -, hstatus, hwx, -, -⟩ := sameExcept_iff.mp h
    refine ⟨s', hmem (by simp), ?_⟩
    cases s'
    simp_all [State.inEnvironment]
  · rintro ⟨e, hmem, rfl⟩
    simpa [AlikeButEnvironment, sameExcept_iff, State.inEnvironment, State.SameBytes] using hmem

theorem State.skipIf_inEnvironment (c : Bool) : (s.inEnvironment e).skipIf c = (s.skipIf c).inEnvironment e := by
  cases c <;> rfl

theorem State.setStackSlot_inEnvironment (k : Nat) (w : Word) :
    (s.inEnvironment e).setStackSlot k w = (s.setStackSlot k w).inEnvironment e := by
  unfold State.setStackSlot
  split <;> rfl

theorem State.afterCall_inEnvironment (nnn : Addr12) :
    (s.inEnvironment e).afterCall nnn = (s.afterCall nnn).inEnvironment e :=
  congrArg (·.setPc (zextAddr nnn)) (State.setStackSlot_inEnvironment (s := s.setSp (s.sp + 1)) _ _)

/-- A load of registers depends on the bytes read only. -/
theorem State.loadRegs_inEnvironment (hmem : s.SameBytes e) (base n : Nat) :
    (s.inEnvironment e).loadRegs base n = (s.loadRegs base n).inEnvironment e := by
  induction n with
  | zero => rfl
  | succ n ih =>
    have hread : Memory.read (s.inEnvironment e).mem (base + n) = Memory.read s.mem (base + n) := hmem _
    rw [State.loadRegs_succ, State.loadRegs_succ, ih, hread]
    rfl

/-- A draw depends on the bytes of its sprite only. -/
theorem drawSprite_congr {m m' : Memory} (h : ∀ a, Memory.read m' a = Memory.read m a) (base : Word) (x0 y0 : Byte)
    (n : Nat) (f : Framebuffer) : drawSprite m' base x0 y0 n f = drawSprite m base x0 y0 n f := by
  have hrow : drawRow m' base x0 y0 = drawRow m base x0 y0 := by
    funext acc row
    rw [drawRow, drawRow, h]
  rw [drawSprite, drawSprite, hrow]

theorem State.afterDrw_inEnvironment (hmem : s.SameBytes e) (x y n : Nib) :
    (s.inEnvironment e).afterDrw x y n = (s.afterDrw x y n).inEnvironment e :=
  congrArg (fun d : Framebuffer × Bool => ((s.inEnvironment e).setFb d.1).setFlag d.2)
    (drawSprite_congr hmem s.i (s.getV x) (s.getV y) n.toNat s.fb)

/-- The same bytes stored in memories that read the same leave memories that read the same. -/
theorem State.SameBytes.writeBytes (hmem : s.SameBytes e) (base : Nat) (bs : List Byte) :
    (s.setMem (Memory.writeBytes s.mem base bs)).SameBytes (e.setMem (Memory.writeBytes e.mem base bs)) := by
  intro a
  rw [State.setMem_mem, State.setMem_mem, Memory.read_writeBytes, Memory.read_writeBytes, hmem a]

/-! ### Outcomes -/

/-- The outcome `o'` is `o` in some environment, where `o` has a next state. -/
def SameOutcome (o o' : Host.Outcome State Fault Refusal) : Prop :=
  ∀ t, o = .next t → ∃ e, t.SameBytes e ∧ o' = .next (t.inEnvironment e)

theorem SameOutcome.next (hmem : t.SameBytes e) : SameOutcome (.next t) (.next (t.inEnvironment e)) := by
  rintro _ ⟨⟩
  exact ⟨e, hmem, rfl⟩

/-- A check that sees neither environment nor memory raises in both or in neither. -/
theorem SameOutcome.unlessFault (hmem : s.SameBytes e) {o o' : Host.Outcome State Fault Refusal}
    (h : SameOutcome o o') (check : Option HaltReason) :
    SameOutcome (s.unlessFault check o) ((s.inEnvironment e).unlessFault check o') := by
  cases check with
  | none => exact h
  | some f => exact .next (t := s.raise f) hmem

theorem SameOutcome.call (hmem : s.SameBytes e) (nnn : Addr12) :
    SameOutcome (exec (.call nnn) s) (exec (.call nnn) (s.inEnvironment e)) := by
  rcases execCall_cases nnn s with ⟨hfull, -⟩ | ⟨hroom, -⟩ | ⟨-, stuck⟩
  · rw [exec_call_of_full nnn hfull, exec_call_of_full (s := s.inEnvironment e) nnn hfull]
    exact .next (t := s.raise .stackOverflow) hmem
  · rw [exec_call_of_room nnn hroom, exec_call_of_room (s := s.inEnvironment e) nnn hroom,
      State.afterCall_inEnvironment]
    refine .next ?_
    rw [State.afterCall, State.setStackSlot_eq]
    exact hmem
  · exact fun t h => nomatch stuck.symm.trans h

theorem SameOutcome.ret (hmem : s.SameBytes e) :
    SameOutcome (exec .ret s) (exec .ret (s.inEnvironment e)) := by
  rcases execRet_cases s with ⟨hempty, -⟩ | ⟨-, -, w, hw, -⟩ | ⟨-, stuck⟩
  · rw [exec_ret_of_empty hempty, exec_ret_of_empty (s := s.inEnvironment e) hempty]
    exact .next (t := s.raise .stackUnderflow) hmem
  · rw [exec_ret_of_slot hw, exec_ret_of_slot (s := s.inEnvironment e) hw]
    exact .next (t := (s.setPc w).setSp (s.sp - 1)) hmem
  · exact fun t h => nomatch stuck.symm.trans h

theorem SameOutcome.skip (hmem : s.SameBytes e) (c : Bool) :
    SameOutcome (.next (s.skipIf c)) (.next ((s.inEnvironment e).skipIf c)) := by
  rw [State.skipIf_inEnvironment]
  refine .next ?_
  rw [State.SameBytes, State.skipIf_mem]
  exact hmem

/-- An instruction that reads neither key, timer nor random source does the same in every environment
(45_keypad_timers.md R227). -/
theorem exec_sameOutcome {i : Instr} (hi : readsEnvironment i = false) (hmem : s.SameBytes e) :
    SameOutcome (exec i s) (exec i (s.inEnvironment e)) := by
  cases i
  case skp | sknp | ldVxDt | rnd => all_goals exact absurd hi nofun
  case call nnn => exact .call hmem nnn
  case ret => exact .ret hmem
  case seImm | sneImm | seReg | sneReg => all_goals exact .skip hmem _
  case drw x y n =>
    have hdraw : SameOutcome (.next (s.afterDrw x y n)) (.next ((s.inEnvironment e).afterDrw x y n)) := by
      rw [State.afterDrw_inEnvironment hmem]
      exact .next hmem
    exact .unlessFault hmem hdraw _
  case ldVxMem x =>
    have hload : SameOutcome (.next (s.loadRegs s.i.toNat (x.toNat + 1)))
        (.next ((s.inEnvironment e).loadRegs s.i.toNat (x.toNat + 1))) := by
      rw [State.loadRegs_inEnvironment hmem, State.loadRegs_eq]
      exact .next hmem
    exact .unlessFault hmem hload _
  case ldB x => exact .unlessFault hmem (.next (hmem.writeBytes s.i.toNat (bcdDigits (s.getV x)))) _
  case ldMem x => exact .unlessFault hmem (.next (hmem.writeBytes s.i.toNat (s.regsUpTo x))) _
  case ldDtVx x => exact .next (t := s.setDt (s.getV x)) (e := e.setDt (s.getV x)) hmem
  case ldStVx x => exact .next (t := s.setSt (s.getV x)) (e := e.setSt (s.getV x)) hmem
  all_goals exact .next (e := e) hmem

end Sys2Proof.Machine
end

section
/-!
PROOFS. The keypad and timer family (45_keypad_timers.md): the key skips, the wait for a key, the moves between a
register and a timer, and the isolation of the other instructions from the environment.
-/

namespace Sys2Proof.Machine

/-- Settles O57: the second state is the first in another environment, and so is its outcome. -/
theorem environmentOnlyWhereRead : Obligations.EnvironmentOnlyWhereRead := by
  unfold Obligations.EnvironmentOnlyWhereRead
  intro i s s' t hi halike h
  obtain ⟨e, hmem, rfl⟩ := alikeButEnvironment_iff.mp halike
  obtain ⟨e', hmem', h'⟩ := exec_sameOutcome hi hmem t h
  exact ⟨_, h', alikeButEnvironment_iff.mpr ⟨e', hmem', rfl⟩⟩

/-- Settles O39: the low nibble of `V[x]` selects the key, and the two skips take opposite conditions. -/
theorem keySkips : Obligations.KeySkips := by
  unfold Obligations.KeySkips
  intro x k s hk
  rw [← keySelect_eq hk]
  refine ⟨⟨s.skipIf (s.isPressed (keySelect (s.getV x))), rfl, exec_sameExcept (i := .skp x) rfl, ?skp⟩,
    ⟨s.skipIf (!s.isPressed (keySelect (s.getV x))), rfl, exec_sameExcept (i := .sknp x) rfl, ?sknp⟩⟩
  case skp => rw [State.skipIf_pc]
  case sknp => simp only [State.skipIf_pc, Bool.not_eq_true', ← Bool.not_eq_true, ite_not]

/-- Settles O40: the gate holds the waiting machine, no clock advance or release writes `STATUS`, and the press is the
end of the wait. -/
theorem waitForKey : Obligations.WaitForKey := by
  unfold Obligations.WaitForKey
  intro x s
  obtain ⟨t, hexec, hwait, hwx⟩ : ∃ t, exec (.ldVxK x) s = .next t ∧ t.status = .waiting ∧ t.wx = x :=
    ⟨(s.setWx x).setStatus .waiting, rfl, rfl, rfl⟩
  refine ⟨t, hexec, hwait, hwx, exec_sameExcept hexec, step_of_not_running (by simp [hwait]),
    fun d => (t.advanceTimers_status d).trans hwait, rfl,
    fun k => ⟨(t.setKey_release_status k.toNat).trans hwait, ?press⟩⟩
  case press =>
    subst hwx
    rw [State.setKey_press_of_waiting hwait]
    refine ⟨rfl, ?pressed, (t.setKeyBit k true).toNat_getV_endWait k, .endWait k, .press k⟩
    case pressed => rw [State.isPressed_endWait, State.isPressed_setKeyBit, if_pos rfl]

/-- Settles O41: each instruction writes one byte, and the tone is on while `ST` is not 0. -/
theorem timerMoves : Obligations.TimerMoves := by
  unfold Obligations.TimerMoves
  intro x s
  refine ⟨⟨s.setV x s.dt, rfl, s.getV_setV_self x _, .setV s x _, exec_sameExcept (i := .ldVxDt x) rfl⟩,
    ⟨s.setDt (s.getV x), rfl, rfl, exec_sameExcept (i := .ldDtVx x) rfl⟩,
    ⟨s.setSt (s.getV x), rfl, rfl, ?tone, exec_sameExcept (i := .ldStVx x) rfl⟩⟩
  case tone => exact decide_eq_true_iff.trans Nat.pos_iff_ne_zero

end Sys2Proof.Machine
end

section
/-!
PROOFS. Rules of the memory instructions (46_memory_ops.md R241 to R243): what each answers inside and outside its legal
range, and the bytes and registers it leaves.
-/

namespace Sys2Proof.Machine

variable {s : State} {x : Nib}

/-! ### Stores -/

/-- A store that leaves 0x200..0xFFF takes the fault of its lowest illegal address, and its effect does not happen
(20_memory.md R62, R64). -/
theorem State.checkedStore_of_illegal {n : Nat} (hn : n ≠ 0) (h : s.i.toNat < 0x200 ∨ 0x1000 < s.i.toNat + n)
    (effect : Host.Outcome State Fault Refusal) :
    s.unlessFault (checkWrite s.i.toNat n) effect =
      .next (s.raise (.addressFault (if s.i.toNat < 0x200 then s.i.toNat else max s.i.toNat 0x1000))) := by
  have hcheck : checkWrite s.i.toNat n =
      some (.addressFault (if s.i.toNat < 0x200 then s.i.toNat else max s.i.toNat 0x1000)) := by
    refine (checkWrite_eq_some _ _ _).mpr ⟨hn, ?_⟩
    by_cases hlow : s.i.toNat < 0x200
    · exact .inl ⟨hlow, by rw [if_pos hlow]⟩
    · exact .inr ⟨by omega, by omega, by rw [if_neg hlow]⟩
  rw [hcheck, State.unlessFault_some]

theorem exec_ldB_of_legal (hlo : 0x200 ≤ s.i.toNat) (hhi : s.i.toNat + 2 ≤ 0xFFF) :
    exec (.ldB x) s = .next (s.setMem (Memory.writeBytes s.mem s.i.toNat (bcdDigits (s.getV x)))) := by
  have hcheck : checkWrite s.i.toNat 3 = none := (checkWrite_eq_none _ _).mpr (.inr ⟨hlo, by omega⟩)
  show s.unlessFault (checkWrite s.i.toNat 3) _ = _
  rw [hcheck, State.unlessFault_none]

theorem exec_ldB_of_illegal (h : s.i.toNat < 0x200 ∨ 0xFFF < s.i.toNat + 2) :
    exec (.ldB x) s =
      .next (s.raise (.addressFault (if s.i.toNat < 0x200 then s.i.toNat else max s.i.toNat 0x1000))) :=
  State.checkedStore_of_illegal (n := 3) (by decide) (by omega) _

theorem exec_ldMem_of_illegal (h : s.i.toNat < 0x200 ∨ 0xFFF < s.i.toNat + x.toNat) :
    exec (.ldMem x) s =
      .next (s.raise (.addressFault (if s.i.toNat < 0x200 then s.i.toNat else max s.i.toNat 0x1000))) :=
  State.checkedStore_of_illegal (n := x.toNat + 1) (by omega) (by omega) _

theorem SameExcept.setMem (m : Memory) : SameExcept [.mem] s (s.setMem m) := by
  simp [sameExcept_iff]

/-- Entry `k` of the bytes stored from `base` on is the byte at `base + k`. -/
theorem Memory.read_writeBytes_inside (m : Memory) (base : Nat) {bs : List Byte} {k : Nat} (hk : k < bs.length) :
    Memory.read (Memory.writeBytes m base bs) (base + k) = bs[k] := by
  rw [Memory.read_writeBytes, dif_pos (by omega)]
  simp

/-- The three digits as numbers: a byte holds each (R241). -/
theorem map_toNat_bcdDigits (b : Byte) :
    (bcdDigits b).map BitVec.toNat = [b.toNat / 100, b.toNat / 10 % 10, b.toNat % 10] := by
  have hb := b.isLt
  simp (disch := omega) only [bcdDigits, List.map_cons, List.map_nil, BitVec.toNat_ofNat, Nat.mod_eq_of_lt]

/-- Digit `k` is the byte at `base + k` after the digits of `b` are stored from `base` on. -/
theorem Memory.toNat_read_writeBytes_bcdDigits (m : Memory) (base : Nat) (b : Byte) {k : Nat} (hk : k < 3) :
    (Memory.read (Memory.writeBytes m base (bcdDigits b)) (base + k)).toNat =
      [b.toNat / 100, b.toNat / 10 % 10, b.toNat % 10][k] := by
  have hlen : k < (bcdDigits b).length := hk
  simp only [Memory.read_writeBytes_inside m base hlen, ← map_toNat_bcdDigits, List.getElem_map]

/-! ### Loads -/

/-- `Fx65` checks the end of its range only: to read below 0x200 is legal (R243). -/
theorem exec_ldVxMem_of_readable (hread : s.i.toNat + x.toNat ≤ 0xFFF) :
    exec (.ldVxMem x) s = .next (s.loadRegs s.i.toNat (x.toNat + 1)) := by
  have hcheck : checkRead s.i.toNat (x.toNat + 1) = none := (checkRead_eq_none _ _).mpr (.inr (by omega))
  show s.unlessFault (checkRead s.i.toNat (x.toNat + 1)) _ = _
  rw [hcheck, State.unlessFault_none]

theorem exec_ldVxMem_of_unreadable (hfar : 0xFFF < s.i.toNat + x.toNat) :
    exec (.ldVxMem x) s = .next (s.raise (.addressFault (max s.i.toNat 0x1000))) := by
  have hcheck : checkRead s.i.toNat (x.toNat + 1) = some (.addressFault (max s.i.toNat 0x1000)) :=
    (checkRead_eq_some _ _ _).mpr ⟨by omega, by omega, rfl⟩
  show s.unlessFault (checkRead s.i.toNat (x.toNat + 1)) _ = _
  rw [hcheck, State.unlessFault_some]

theorem SameExcept.loadRegs (base n : Nat) : SameExcept [.v] s (s.loadRegs base n) := by
  rw [State.loadRegs_eq]
  simp [sameExcept_iff]

/-- `V[0]` to `V[x]` are loaded, inclusive, and the registers above are kept. -/
theorem State.getV_loadRegs_upTo (base : Nat) (x k : Nib) :
    (s.loadRegs base (x.toNat + 1)).getV k =
      if k.toNat ≤ x.toNat then Memory.read s.mem (base + k.toNat) else s.getV k := by
  simp only [State.getV_loadRegs s base (x.toNat + 1) x.isLt, Nat.lt_succ_iff]

end Sys2Proof.Machine
end

section
/-!
PROOFS. The memory-instruction family (46_memory_ops.md): the decimal digits, the registers stored and loaded, the
faults of each, and the load that undoes a store.
-/

namespace Sys2Proof.Machine

/-- Settles O44: a legal store writes the three digits, an illegal one takes the fault of its check. -/
theorem storeBcd : Obligations.StoreBcd := by
  unfold Obligations.StoreBcd
  refine ⟨fun x s hlo hhi => ?legal, fun x s h => ?illegal⟩
  case legal =>
    have hdigit {k : Nat} (hk : k < 3) := Memory.toNat_read_writeBytes_bcdDigits s.mem s.i.toNat (s.getV x) hk
    refine ⟨_, exec_ldB_of_legal hlo hhi, hdigit (k := 0) (by decide), hdigit (k := 1) (by decide),
      hdigit (k := 2) (by decide), fun a ha => ?outside, .setMem _⟩
    case outside => exact Memory.read_writeBytes_outside s.mem s.i.toNat a _ (by rw [length_bcdDigits]; omega)
  case illegal => exact ⟨_, exec_ldB_of_illegal h, s.raise_status _, .raise _⟩

/-- Settles O45: a legal store writes the registers up to `V[x]`, an illegal one takes the fault of its check. -/
theorem storeRegisters : Obligations.StoreRegisters := by
  unfold Obligations.StoreRegisters
  refine ⟨fun x s hlo hhi => ?legal, fun x s h => ?illegal⟩
  case legal =>
    refine ⟨_, exec_ldMem_of_legal hlo hhi, fun k hk => s.read_writeBytes_regsUpTo hk s.mem s.i.toNat,
      fun a ha => ?outside, .setMem _⟩
    case outside => exact Memory.read_writeBytes_outside s.mem s.i.toNat a _ (by rw [State.length_regsUpTo]; omega)
  case illegal => exact ⟨_, exec_ldMem_of_illegal h, s.raise_status _, .raise _⟩

/-- Settles O46: a readable load writes the registers up to `V[x]`, an unreadable one takes the fault of its check. -/
theorem loadRegisters : Obligations.LoadRegisters := by
  unfold Obligations.LoadRegisters
  refine ⟨fun x s hread => ?readable, fun x s hfar => ?unreadable⟩
  case readable => exact ⟨_, exec_ldVxMem_of_readable hread, s.getV_loadRegs_upTo s.i.toNat x, .loadRegs _ _⟩
  case unreadable => exact ⟨_, exec_ldVxMem_of_unreadable hfar, s.raise_status _, .raise _⟩

/-- Settles O47: the load reads the bytes the store wrote, since it starts at the same `I`. -/
theorem dumpLoadRoundTrip : Obligations.DumpLoadRoundTrip := by
  unfold Obligations.DumpLoadRoundTrip
  intro x s t u hlo hhi hdump hi hmem
  cases (exec_ldMem_of_legal hlo hhi).symm.trans hdump
  rw [State.setMem_i] at hi
  refine ⟨_, exec_ldVxMem_of_readable (by rw [hi]; exact hhi), fun k hk => ?restored⟩
  case restored =>
    calc (u.loadRegs u.i.toNat (x.toNat + 1)).getV k
      _ = Memory.read u.mem (s.i.toNat + k.toNat) := by rw [State.getV_loadRegs_upTo, if_pos hk, hi]
      _ = Memory.read (Memory.writeBytes s.mem s.i.toNat (s.regsUpTo x)) (s.i.toNat + k.toNat) :=
        hmem _ (by omega) (by omega)
      _ = s.getV k := s.read_writeBytes_regsUpTo hk s.mem s.i.toNat

end Sys2Proof.Machine
end

section
/-!
PROOFS. Rules of fault entry (60_exceptions.md R265, R268): which instruction raises what, what a halting step leaves,
and that with at most 16 frames every operation has a next state.
-/

namespace Sys2Proof.Machine

variable {s t u : State} {i : Instr} {f : HaltReason}

/-! ### The reason recorded -/

theorem checkRead_raises_addressFault {addr n : Nat} (h : checkRead addr n = some f) : ∃ a, f = .addressFault a := by
  obtain ⟨-, -, rfl⟩ := (checkRead_eq_some _ _ _).mp h
  exact ⟨_, rfl⟩

theorem checkWrite_raises_addressFault {addr n : Nat} (h : checkWrite addr n = some f) :
    ∃ a, f = .addressFault a := by
  obtain ⟨-, ⟨-, rfl⟩ | ⟨-, -, rfl⟩⟩ := (checkWrite_eq_some _ _ _).mp h
  · exact ⟨_, rfl⟩
  · exact ⟨_, rfl⟩

/-- A checked effect that does not itself write `STATUS` halts a running machine only with the fault of its check. -/
theorem State.check_of_halted {check : Option HaltReason} (hrun : s.status = .running)
    (h : s.unlessFault check (.next u) = .next t) (hu : u.status = s.status) (hf : t.status = .halted f) :
    check = some f := by
  rcases State.unlessFault_next h with ⟨g, hc, rfl⟩ | ⟨-, rfl⟩
  · rw [hc, Status.halted.inj hf]
  · exact absurd (hrun.symm.trans (hu.symm.trans hf)) nofun

/-- An instruction that halts a running machine is a return, a call, or one of the four that access memory, each with
its own fault (R265). -/
theorem exec_halts_cases (hrun : s.status = .running) (h : exec i s = .next t) (hf : t.status = .halted f) :
    (i = .ret ∧ f = .stackUnderflow) ∨ ((∃ nnn, i = .call nnn) ∧ f = .stackOverflow) ∨
      (((∃ x y n, i = .drw x y n) ∨ (∃ x, i = .ldB x) ∨ (∃ x, i = .ldMem x) ∨ (∃ x, i = .ldVxMem x)) ∧
        ∃ a, f = .addressFault a) := by
  have hchanged : t.status ≠ s.status := fun e => nomatch hf.symm.trans (e.trans hrun)
  have raised {check : Option HaltReason} {u : State} (h : s.unlessFault check (.next u) = .next t)
      (hu : u.status = s.status) : check = some f := State.check_of_halted hrun h hu hf
  cases i
  case ret =>
    rcases execRet_cases s with ⟨-, e⟩ | ⟨-, -, w, -, e⟩ | ⟨-, e⟩ <;> cases e.symm.trans h
    · exact .inl ⟨rfl, (Status.halted.inj hf).symm⟩
    · exact absurd rfl hchanged
  case call nnn =>
    rcases execCall_cases nnn s with ⟨-, e⟩ | ⟨-, e⟩ | ⟨-, e⟩ <;> cases e.symm.trans h
    · exact .inr (.inl ⟨⟨nnn, rfl⟩, (Status.halted.inj hf).symm⟩)
    · exact absurd (by rw [State.setStackSlot_eq]; rfl) hchanged
  case drw x y n =>
    exact .inr (.inr ⟨.inl ⟨x, y, n, rfl⟩, checkRead_raises_addressFault (raised h rfl)⟩)
  case ldB x =>
    exact .inr (.inr ⟨.inr (.inl ⟨x, rfl⟩), checkWrite_raises_addressFault (raised h rfl)⟩)
  case ldMem x =>
    exact .inr (.inr ⟨.inr (.inr (.inl ⟨x, rfl⟩)), checkWrite_raises_addressFault (raised h rfl)⟩)
  case ldVxMem x =>
    have hloaded : (s.loadRegs s.i.toNat (x.toNat + 1)).status = s.status := by rw [State.loadRegs_eq]
    exact .inr (.inr ⟨.inr (.inr (.inr ⟨x, rfl⟩)), checkRead_raises_addressFault (raised h hloaded)⟩)
  case ldVxK =>
    cases h
    exact nomatch hf
  all_goals exact absurd (exec_sameExcept h .status (by simp [writtenFields])) hchanged

/-! ### The state after a fault -/

/-- An instruction that halts a running machine does nothing else (R268). -/
theorem exec_eq_raise_of_halted (hrun : s.status = .running) (h : exec i s = .next t) (hf : t.status = .halted f) :
    t = s.raise f := by
  have hwait : ∀ x, i ≠ .ldVxK x := by
    rintro x rfl
    cases h
    exact nomatch hf
  rcases exec_running_or_raise hrun h hwait with hkept | ⟨g, rfl, -⟩
  · exact nomatch hkept.symm.trans hf
  · rw [Status.halted.inj hf]

/-- A step that halts a running machine takes the fault before the pc is advanced, in the fetch, or after it. -/
theorem step_halts_cases (hrun : s.status = .running) (h : step s = .next t) (hf : t.status = .halted f) :
    (checkFetch s.pc ≠ none ∧ t = s.raise f) ∨ (checkFetch s.pc = none ∧ t = s.advancePc.raise f) := by
  rcases step_cases s with ⟨hgate, -⟩ | ⟨-, ⟨g, hg, e⟩ | ⟨hok, ⟨-, e⟩ | ⟨i, -, e⟩⟩⟩
  · exact absurd hrun hgate
  · cases e.symm.trans h
    exact .inl ⟨by simp [hg], by rw [Status.halted.inj hf]⟩
  · cases e.symm.trans h
    exact .inr ⟨hok, by rw [Status.halted.inj hf]⟩
  · exact .inr ⟨hok, exec_eq_raise_of_halted (s := s.advancePc) hrun (e.symm.trans h) hf⟩

/-! ### A next state -/

theorem Completes.unlessFault (check : Option HaltReason) (u : State) :
    Completes (s.unlessFault check (.next u)) := by
  rcases s.unlessFault_eq check (.next u) with ⟨g, -, e⟩ | ⟨-, e⟩
  · exact ⟨_, e⟩
  · exact ⟨_, e⟩

/-- With at most 16 frames every slot that `00EE` and `2nnn` use exists, and no other instruction can stop. -/
theorem exec_completes (i : Instr) (hsp : s.sp.toNat ≤ 16) : Completes (exec i s) := by
  cases i
  case ret =>
    rcases execRet_cases s with ⟨-, e⟩ | ⟨-, -, w, -, e⟩ | ⟨hmany, -⟩
    · exact ⟨_, e⟩
    · exact ⟨_, e⟩
    · omega
  case call nnn =>
    rcases execCall_cases nnn s with ⟨-, e⟩ | ⟨-, e⟩ | ⟨hmany, -⟩
    · exact ⟨_, e⟩
    · exact ⟨_, e⟩
    · omega
  case drw | ldB | ldMem | ldVxMem => all_goals exact .unlessFault _ _
  all_goals exact ⟨_, rfl⟩

theorem step_completes (hsp : s.sp.toNat ≤ 16) : Completes (step s) := by
  rcases step_cases s with ⟨-, e⟩ | ⟨-, ⟨g, -, e⟩ | ⟨-, ⟨-, e⟩ | ⟨i, -, e⟩⟩⟩ <;> rw [e]
  on_goal 4 => exact exec_completes i hsp
  all_goals exact ⟨_, rfl⟩

theorem applyOp_completes (op : Op) (hsp : s.sp.toNat ≤ 16) : Completes (applyOp op s) := by
  cases op
  case step => exact step_completes hsp
  all_goals exact ⟨_, rfl⟩

end Sys2Proof.Machine
end

section
/-!
PROOFS. Rules of the boundary operations (60_exceptions.md R278, R283, R289): the state each leaves, case by case.
-/

namespace Sys2Proof.Machine

variable {s : State}

/-! ### The timer unit (R278) -/

theorem State.advanceTimers_of_neg {delta : Rat} (hneg : delta < 0) : s.advanceTimers delta = s := if_pos hneg

theorem State.advanceTimers_of_lt {delta : Rat} (hpos : 0 ≤ delta) (hlt : s.acc + delta < 1 / 60) :
    s.advanceTimers delta = s.setAcc (s.acc + delta) := by
  rcases s.advanceTimers_cases delta with ⟨hneg, -⟩ | ⟨-, hge, -⟩ | ⟨-, -, e⟩
  · exact absurd hneg (not_lt.mpr hpos)
  · exact absurd hlt (not_lt.mpr hge)
  · exact e

theorem State.advanceTimers_of_ge {delta : Rat} (hpos : 0 ≤ delta) (hge : 1 / 60 ≤ s.acc + delta) :
    s.advanceTimers delta = s.tick.setAcc 0 := by
  rcases s.advanceTimers_cases delta with ⟨hneg, -⟩ | ⟨-, -, e⟩ | ⟨-, hlt, -⟩
  · exact absurd hneg (not_lt.mpr hpos)
  · exact e
  · exact absurd hlt (not_lt.mpr hge)

theorem SameExcept.setAcc (q : Rat) : SameExcept [.acc] s (s.setAcc q) := by
  simp [sameExcept_iff]

theorem SameExcept.tick : SameExcept [.dt, .st] s s.tick := by
  simp [sameExcept_iff, State.tick]

/-! ### The keypad scanner (R283) -/

theorem State.setKey_of_bad_id {id : Int} (hbad : id < 0 ∨ 15 < id) (p : Bool) : s.setKey id p = s := if_pos hbad

/-- But for a press during a wait, `SetKey` stores the key and does nothing else. -/
theorem State.setKey_of_no_press {p : Bool} (hno : ¬ (p = true ∧ s.status = .waiting)) (k : Nib) :
    s.setKey k.toNat p = s.setKeyBit k p := by
  have hk : BitVec.ofNat 4 (k.toNat : Int).toNat = k := by simp
  rcases s.setKey_cases k.toNat p with ⟨hbad, -⟩ | ⟨-, -, -, e⟩ | ⟨-, -, hp, hwait, -⟩
  · omega
  · rw [e, hk]
  · exact absurd ⟨hp, hwait⟩ hno

theorem SameExcept.setKeyBit (k : Nib) (p : Bool) : SameExcept [.key] s (s.setKeyBit k p) := by
  simp [sameExcept_iff, State.setKeyBit]

/-- `SetKey` gives its key the state it is told and keeps every other key, wait or no wait. -/
theorem State.isPressed_setKey (k j : Nib) (p : Bool) :
    (s.setKey k.toNat p).isPressed j = if j = k then p else s.isPressed j := by
  by_cases hpress : p = true ∧ s.status = .waiting
  · obtain ⟨rfl, hwait⟩ := hpress
    rw [State.setKey_press_of_waiting hwait, State.isPressed_endWait, State.isPressed_setKeyBit]
  · rw [State.setKey_of_no_press hpress, State.isPressed_setKeyBit]

/-! ### Load (R289) -/

theorem State.load_of_too_long {bytes : List Byte} (hlong : 3584 < bytes.length) : s.load bytes = (.failure, s) :=
  if_pos hlong

theorem State.load_of_fits {bytes : List Byte} (hfits : bytes.length ≤ 3584) :
    s.load bytes = (.success, s.setMem (Memory.writeBytes s.mem 0x200 bytes)) :=
  if_neg (not_lt.mpr hfits)

end Sys2Proof.Machine
end

section
/-!
PROOFS. Rules of power-on and `Reset` (70_reset_and_hazards.md R310, R313): every register, slot and key is 0 after
power-on, and what a byte holds after a `Reset`.
-/

namespace Sys2Proof.Machine

@[simp] theorem State.getV_reset (r : Nib) : State.reset.getV r = 0 := Vector.getElem_replicate _

theorem State.stackSlot_reset {k : Nat} (h1 : 1 ≤ k) (h16 : k ≤ 16) : State.reset.stackSlot k = some 0 := by
  have hstack : State.reset.stack[k - 1]? = some 0 := Vector.getElem?_replicate_of_lt (by omega)
  rw [State.stackSlot, if_neg (by omega), hstack]

@[simp] theorem State.isPressed_reset (k : Nib) : State.reset.isPressed k = false := Vector.getElem_replicate _

/-- `Reset` reseeds the font and keeps every other byte (R310, R311). -/
theorem State.read_doReset (s : State) (a : Nat) :
    Memory.read s.doReset.mem a = if a < 80 then Memory.powerOn a else Memory.read s.mem a :=
  Memory.read_reseedFont s.mem a

end Sys2Proof.Machine
end

section
/-!
PROOFS. The exceptions family (60_exceptions.md): the faults and their entry, the frame of every instruction, the timer
unit, the keypad scanner, `Load`, and what every boundary operation keeps.
-/

namespace Sys2Proof.Machine

/-- Settles O54, operation by operation. -/
theorem operationsKeepInv : Obligations.OperationsKeepInv := by
  unfold Obligations.OperationsKeepInv
  exact fun op _ _ => applyOp_keeps_inv op

/-- Settles O55: the invariant bounds `sp`, and only a step past 16 frames has no next state. -/
theorem operationsComplete : Obligations.OperationsComplete := by
  unfold Obligations.OperationsComplete
  exact fun op _ hs => applyOp_completes op hs.spLe

/-- Settles O10: the fault is taken from the state as it was, or from that state with the pc advanced. -/
theorem faultEntryPrecise : Obligations.FaultEntryPrecise := by
  unfold Obligations.FaultEntryPrecise
  intro s t f hrun h hf
  rcases step_halts_cases hrun h hf with ⟨hbad, rfl⟩ | ⟨hok, rfl⟩
  · exact ⟨.raise_of_mem (by simp), (if_neg hbad).symm, rfl⟩
  · exact ⟨(SameExcept.advancePc.mono (by simp)).trans (.raise_of_mem (by simp)), (if_pos hok).symm, rfl⟩

/-- Settles O11, from the one reason each instruction can raise. -/
theorem whichInstructionFaults : Obligations.WhichInstructionFaults := by
  unfold Obligations.WhichInstructionFaults
  intro i s t f hrun h hf
  rcases exec_halts_cases hrun h hf with ⟨hi, rfl⟩ | ⟨hi, rfl⟩ | ⟨hi, a, rfl⟩
  · exact hi
  · exact hi
  · exact hi

/-- Settles O14: the frames of the pieces of state, of the registers and of the bytes. -/
theorem everyInstructionFrame : Obligations.EveryInstructionFrame := by
  unfold Obligations.EveryInstructionFrame
  exact fun i s t h =>
    ⟨exec_sameExcept h, exec_sameRegsExcept h, fun a ha => (exec_read_cases h a).resolve_right fun hst => ha hst.1⟩

/-- Settles O49: a store of the whole image from 0x200 up, or nothing. -/
theorem loadWritesImage : Obligations.LoadWritesImage := by
  unfold Obligations.LoadWritesImage
  refine ⟨fun s bytes => State.load_of_too_long, fun s bytes hfits => ?fits⟩
  case fits =>
    rw [State.load_of_fits hfits]
    refine ⟨rfl, fun k hk => ?inside, fun a => Memory.read_writeBytes_outside s.mem 0x200 a bytes, .setMem _⟩
    case inside => rw [State.setMem_mem, Memory.read_writeBytes_inside s.mem 0x200 hk, List.getElem?_eq_getElem hk]

/-- Settles O42: the three cases of the sum. -/
theorem advanceTimersTicks : Obligations.AdvanceTimersTicks := by
  unfold Obligations.AdvanceTimersTicks
  refine fun s delta => ⟨State.advanceTimers_of_neg, fun hpos hlt => ?accumulate, fun hpos hge => ?tick⟩
  case accumulate =>
    rw [State.advanceTimers_of_lt hpos hlt]
    exact ⟨rfl, .setAcc _⟩
  case tick =>
    rw [State.advanceTimers_of_ge hpos hge]
    exact ⟨rfl, decFloor_toNat s.dt, decFloor_toNat s.st,
      (SameExcept.tick.mono (by simp)).trans ((SameExcept.setAcc 0).mono (by simp))⟩

/-- Settles O43: the key is stored in every status, and only a press during a wait does more. -/
theorem setKeyEffects : Obligations.SetKeyEffects := by
  unfold Obligations.SetKeyEffects
  refine ⟨fun s id p hbad => State.setKey_of_bad_id hbad p,
    fun s k p => ⟨fun j => State.isPressed_setKey k j p, fun hno => ?noPress, ?press⟩⟩
  case noPress =>
    rw [State.setKey_of_no_press hno]
    exact .setKeyBit k p
  case press =>
    rintro rfl hwait
    rw [State.setKey_press_of_waiting hwait]
    exact ⟨rfl, (s.setKeyBit k true).toNat_getV_endWait k, .endWait k, (SameExcept.press k).mono (by simp)⟩

end Sys2Proof.Machine
end

section
/-!
PROOFS. The reset family (70_reset_and_hazards.md): the power-on state, what `Reset` makes of any state, and the
invariant at power-on.
-/

namespace Sys2Proof.Machine

/-- Settles O51: the reset values, and a memory in which no byte is listed. -/
theorem powerOnState : Obligations.PowerOnState := by
  unfold Obligations.PowerOnState
  exact ⟨State.getV_reset, rfl, rfl, rfl, fun _ => State.stackSlot_reset, rfl, rfl, Framebuffer.cell_clear,
    State.isPressed_reset, rfl, rfl, rfl, fun _ => State.reset_inv.font_getElem?, Memory.powerOn_zero⟩

/-- Settles O50: the power-on values, and the memory with its font reseeded. -/
theorem resetEffects : Obligations.ResetEffects := by
  unfold Obligations.ResetEffects
  intro s
  refine ⟨State.getV_reset, rfl, rfl, rfl, fun _ => State.stackSlot_reset, rfl, rfl, Framebuffer.cell_clear,
    State.isPressed_reset, rfl, rfl, rfl, fun k hk => ?font, fun a ha => ?kept⟩
  case font =>
    rw [State.read_doReset, if_pos hk]
    exact State.reset_inv.font_getElem? hk
  case kept => rw [State.read_doReset, if_neg (by omega)]

/-- Settles O52: memory is canonical because nothing is listed, and the stack is empty. -/
theorem invAtPowerOn : Obligations.InvAtPowerOn := by
  unfold Obligations.InvAtPowerOn
  exact State.reset_inv

end Sys2Proof.Machine
end
